-- ==== Sys2Proof/Word.lean ====
section
/-! DEFINITION. The word types of CHIP8-CORE (00_scope.md R6, R8): every value is an unsigned bit field. -/

namespace Sys2Proof

/-- A V register, a timer, `kk` or a memory cell: 8 bits (R8). -/
abbrev Byte := BitVec 8

/-- `pc`, `I`, a stack entry or an instruction word: 16 bits (R8). -/
abbrev Word := BitVec 16

/-- The 4-bit fields `n`, and the register numbers `x` and `y` (R8, R71). -/
abbrev Nibble := BitVec 4

/-- The number of a general register, V0 to VF (R21). -/
abbrev RegIx := Nibble

/-- The 12-bit address field `nnn` (R8, R71). -/
abbrev Addr := BitVec 12

end Sys2Proof
end

