-- ==== Sys2Proof/Syntax.lean ====
section
/-! DEFINITION. The 34 instructions of CHIP-8 base (30_encoding.md R80), one constructor per row of the
opcode table. A constructor carries the fields its row names (R71); bits a row ignores are no part of it. -/

namespace Sys2Proof

/-- An instruction with its operands. -/
inductive Instr where
  /-- `00E0` CLS -/
  | cls
  /-- `00EE` RET -/
  | ret
  /-- `1nnn` JP nnn -/
  | jp (nnn : Addr)
  /-- `2nnn` CALL nnn -/
  | call (nnn : Addr)
  /-- `3xkk` SE Vx, kk -/
  | seKk (x : RegIx) (kk : Byte)
  /-- `4xkk` SNE Vx, kk -/
  | sneKk (x : RegIx) (kk : Byte)
  /-- `5xy0` SE Vx, Vy -/
  | seVy (x y : RegIx)
  /-- `6xkk` LD Vx, kk -/
  | ldKk (x : RegIx) (kk : Byte)
  /-- `7xkk` ADD Vx, kk -/
  | addKk (x : RegIx) (kk : Byte)
  /-- `8xy0` LD Vx, Vy -/
  | ldVy (x y : RegIx)
  /-- `8xy1` OR Vx, Vy -/
  | orVy (x y : RegIx)
  /-- `8xy2` AND Vx, Vy -/
  | andVy (x y : RegIx)
  /-- `8xy3` XOR Vx, Vy -/
  | xorVy (x y : RegIx)
  /-- `8xy4` ADD Vx, Vy -/
  | addVy (x y : RegIx)
  /-- `8xy5` SUB Vx, Vy -/
  | subVy (x y : RegIx)
  /-- `8xy6` SHR Vx -/
  | shr (x : RegIx)
  /-- `8xy7` SUBN Vx, Vy -/
  | subnVy (x y : RegIx)
  /-- `8xyE` SHL Vx -/
  | shl (x : RegIx)
  /-- `9xy0` SNE Vx, Vy -/
  | sneVy (x y : RegIx)
  /-- `Annn` LD I, nnn -/
  | ldI (nnn : Addr)
  /-- `Bnnn` JP V0, nnn -/
  | jpV0 (nnn : Addr)
  /-- `Cxkk` RND Vx, kk -/
  | rnd (x : RegIx) (kk : Byte)
  /-- `Dxyn` DRW Vx, Vy, n -/
  | drw (x y : RegIx) (n : Nibble)
  /-- `Ex9E` SKP Vx -/
  | skp (x : RegIx)
  /-- `ExA1` SKNP Vx -/
  | sknp (x : RegIx)
  /-- `Fx07` LD Vx, DT -/
  | ldVxDT (x : RegIx)
  /-- `Fx0A` LD Vx, K -/
  | ldVxK (x : RegIx)
  /-- `Fx15` LD DT, Vx -/
  | ldDTVx (x : RegIx)
  /-- `Fx18` LD ST, Vx -/
  | ldSTVx (x : RegIx)
  /-- `Fx1E` ADD I, Vx -/
  | addI (x : RegIx)
  /-- `Fx29` LD F, Vx -/
  | ldF (x : RegIx)
  /-- `Fx33` LD B, Vx -/
  | ldB (x : RegIx)
  /-- `Fx55` LD [I], Vx -/
  | storeRegs (x : RegIx)
  /-- `Fx65` LD Vx, [I] -/
  | loadRegs (x : RegIx)
  deriving DecidableEq, Repr

end Sys2Proof
end

