-- ==== Sys2Proof/WellFormed.lean ====
section
/-! DEFINITION. The operand checks of 30_encoding.md R84: a register is V0 to VF, and `n`, `kk`, `nnn` are numbers in
0..0xF, 0..0xFF and 0..0xFFF. An `Instr` carries its operands in fields of exactly these widths (R71), so every term of
`Instr` passes (Laws/PerInstr.lean proves it, constructor by constructor); the checks themselves are on numbers. -/

namespace Sys2Proof

/-- A register number of R84: one hex digit. -/
def WellFormed.reg (r : Nat) : Bool := r < 16

/-- A number `n` of R84. -/
def WellFormed.nibble (n : Nat) : Bool := n < 16

/-- A number `kk` of R84. -/
def WellFormed.byte (k : Nat) : Bool := k < 256

/-- A number `nnn` of R84. -/
def WellFormed.addr (a : Nat) : Bool := a < 4096

/-- Every operand of the instruction is in the range R84 gives it. -/
def Instr.wellFormed : Instr → Bool
  | .cls => true
  | .ret => true
  | .jp nnn => WellFormed.addr nnn.toNat
  | .call nnn => WellFormed.addr nnn.toNat
  | .seKk x kk => WellFormed.reg x.toNat && WellFormed.byte kk.toNat
  | .sneKk x kk => WellFormed.reg x.toNat && WellFormed.byte kk.toNat
  | .seVy x y => WellFormed.reg x.toNat && WellFormed.reg y.toNat
  | .ldKk x kk => WellFormed.reg x.toNat && WellFormed.byte kk.toNat
  | .addKk x kk => WellFormed.reg x.toNat && WellFormed.byte kk.toNat
  | .ldVy x y => WellFormed.reg x.toNat && WellFormed.reg y.toNat
  | .orVy x y => WellFormed.reg x.toNat && WellFormed.reg y.toNat
  | .andVy x y => WellFormed.reg x.toNat && WellFormed.reg y.toNat
  | .xorVy x y => WellFormed.reg x.toNat && WellFormed.reg y.toNat
  | .addVy x y => WellFormed.reg x.toNat && WellFormed.reg y.toNat
  | .subVy x y => WellFormed.reg x.toNat && WellFormed.reg y.toNat
  | .shr x => WellFormed.reg x.toNat
  | .subnVy x y => WellFormed.reg x.toNat && WellFormed.reg y.toNat
  | .shl x => WellFormed.reg x.toNat
  | .sneVy x y => WellFormed.reg x.toNat && WellFormed.reg y.toNat
  | .ldI nnn => WellFormed.addr nnn.toNat
  | .jpV0 nnn => WellFormed.addr nnn.toNat
  | .rnd x kk => WellFormed.reg x.toNat && WellFormed.byte kk.toNat
  | .drw x y n => WellFormed.reg x.toNat && WellFormed.reg y.toNat && WellFormed.nibble n.toNat
  | .skp x => WellFormed.reg x.toNat
  | .sknp x => WellFormed.reg x.toNat
  | .ldVxDT x => WellFormed.reg x.toNat
  | .ldVxK x => WellFormed.reg x.toNat
  | .ldDTVx x => WellFormed.reg x.toNat
  | .ldSTVx x => WellFormed.reg x.toNat
  | .addI x => WellFormed.reg x.toNat
  | .ldF x => WellFormed.reg x.toNat
  | .ldB x => WellFormed.reg x.toNat
  | .storeRegs x => WellFormed.reg x.toNat
  | .loadRegs x => WellFormed.reg x.toNat

end Sys2Proof
end

