-- ==== Sys2Proof/Decode.lean ====
section
/-! DEFINITION. Decoding (30_encoding.md R70 to R83): the fields of a word, the two-level dispatch, total on every word
and on any bytes, rejecting by name; after it the opcode map R80 as data and the encoder of the canonical words (R85). -/

namespace Sys2Proof

/-- Why some bytes are no instruction. The four misses execute as a no-op (R79), they are no error. -/
inductive Miss where
  /-- Family 0x0 with a low nibble other than 0x0 and 0xE (R74). -/
  | family0
  /-- Family 0x8 with a low nibble in 0x8..0xD or 0xF (R75). -/
  | family8
  /-- Family 0xE with a low nibble other than 0x1 and 0xE (R76). -/
  | familyE
  /-- Family 0xF with a low byte that is none of the nine keys (R77). -/
  | familyF
  /-- Fewer than the two bytes of a word (R70); no fetch gives this. -/
  | truncated
  deriving DecidableEq, Repr

/-- What the decoder answers: one of the 34 instructions, or a miss (R79). -/
inductive Decoded where
  | instr (i : Instr)
  | miss (m : Miss)
  deriving DecidableEq, Repr

/-- `op`, `w[15:12]` (R71). -/
def opField (w : Word) : Nibble := w.extractLsb' 12 4

/-- `x`, `w[11:8]` (R71). -/
def xField (w : Word) : RegIx := w.extractLsb' 8 4

/-- `y`, `w[7:4]` (R71). -/
def yField (w : Word) : RegIx := w.extractLsb' 4 4

/-- `n`, `w[3:0]` (R71). -/
def nField (w : Word) : Nibble := w.extractLsb' 0 4

/-- `kk`, `w[7:0]` (R71). -/
def kkField (w : Word) : Byte := w.extractLsb' 0 8

/-- `nnn`, `w[11:0]` (R71). -/
def nnnField (w : Word) : Addr := w.extractLsb' 0 12

/-- Family 0x0, keyed by `w[3:0]` (R74). -/
def decodeFamily0 (w : Word) : Decoded :=
  if nField w = 0x0 then .instr .cls
  else if nField w = 0xE then .instr .ret
  else .miss .family0

/-- Family 0x8, keyed by `w[3:0]` (R75). -/
def decodeFamily8 (w : Word) : Decoded :=
  if nField w = 0x0 then .instr (.ldVy (xField w) (yField w))
  else if nField w = 0x1 then .instr (.orVy (xField w) (yField w))
  else if nField w = 0x2 then .instr (.andVy (xField w) (yField w))
  else if nField w = 0x3 then .instr (.xorVy (xField w) (yField w))
  else if nField w = 0x4 then .instr (.addVy (xField w) (yField w))
  else if nField w = 0x5 then .instr (.subVy (xField w) (yField w))
  else if nField w = 0x6 then .instr (.shr (xField w))
  else if nField w = 0x7 then .instr (.subnVy (xField w) (yField w))
  else if nField w = 0xE then .instr (.shl (xField w))
  else .miss .family8

/-- Family 0xE, keyed by `w[3:0]` (R76). -/
def decodeFamilyE (w : Word) : Decoded :=
  if nField w = 0xE then .instr (.skp (xField w))
  else if nField w = 0x1 then .instr (.sknp (xField w))
  else .miss .familyE

/-- Family 0xF, keyed by `w[7:0]` (R77). -/
def decodeFamilyF (w : Word) : Decoded :=
  if kkField w = 0x07 then .instr (.ldVxDT (xField w))
  else if kkField w = 0x0A then .instr (.ldVxK (xField w))
  else if kkField w = 0x15 then .instr (.ldDTVx (xField w))
  else if kkField w = 0x18 then .instr (.ldSTVx (xField w))
  else if kkField w = 0x1E then .instr (.addI (xField w))
  else if kkField w = 0x29 then .instr (.ldF (xField w))
  else if kkField w = 0x33 then .instr (.ldB (xField w))
  else if kkField w = 0x55 then .instr (.storeRegs (xField w))
  else if kkField w = 0x65 then .instr (.loadRegs (xField w))
  else .miss .familyF

/-- `Decode(w)`: the two-level dispatch (R73 to R79), total on every word. -/
def decode (w : Word) : Decoded :=
  if opField w = 0x0 then decodeFamily0 w
  else if opField w = 0x1 then .instr (.jp (nnnField w))
  else if opField w = 0x2 then .instr (.call (nnnField w))
  else if opField w = 0x3 then .instr (.seKk (xField w) (kkField w))
  else if opField w = 0x4 then .instr (.sneKk (xField w) (kkField w))
  else if opField w = 0x5 then .instr (.seVy (xField w) (yField w))
  else if opField w = 0x6 then .instr (.ldKk (xField w) (kkField w))
  else if opField w = 0x7 then .instr (.addKk (xField w) (kkField w))
  else if opField w = 0x8 then decodeFamily8 w
  else if opField w = 0x9 then .instr (.sneVy (xField w) (yField w))
  else if opField w = 0xA then .instr (.ldI (nnnField w))
  else if opField w = 0xB then .instr (.jpV0 (nnnField w))
  else if opField w = 0xC then .instr (.rnd (xField w) (kkField w))
  else if opField w = 0xD then .instr (.drw (xField w) (yField w) (nField w))
  else if opField w = 0xE then decodeFamilyE w
  else decodeFamilyF w

/-- The word two stored bytes make: the high byte first (R56). -/
def wordOfBytes (hi lo : Byte) : Word := hi ++ lo

/-- The high byte of a word, stored first (R56). -/
def hiByte (w : Word) : Byte := w.extractLsb' 8 8

/-- The low byte of a word, stored second (R56). -/
def loByte (w : Word) : Byte := w.extractLsb' 0 8

/-- The bytes of a word in memory order (R56). -/
def bytesOfWord (w : Word) : List Byte := [hiByte w, loByte w]

/-- Decode the instruction at the head of some bytes. -/
def decodeBytes : List Byte → Decoded
  | hi :: lo :: _ => decode (wordOfBytes hi lo)
  | _ => .miss .truncated

/-- The instruction the decoder reads from the word `w` of the opcode table, laid out as memory holds it. -/
def decodeTableWord (nbits w : Nat) : Option Instr :=
  match decodeBytes (bytesOfWord (BitVec.ofNat 16 (w % 2 ^ nbits))) with
  | .instr i => some i
  | .miss _ => none

/-- A row of the opcode map (R80): the word `w` selects it when `w AND mask = pattern`. -/
structure OpcodeRow where
  pattern : Word
  mask : Word
  deriving DecidableEq, Repr

/-- The word selects the row (R80). -/
def OpcodeRow.selects (r : OpcodeRow) (w : Word) : Bool := (w &&& r.mask) == r.pattern

/-- The row of R80 an instruction stands for. -/
def opcodeRow : Instr → OpcodeRow
  | .cls => ⟨0x0000, 0xF00F⟩
  | .ret => ⟨0x000E, 0xF00F⟩
  | .jp _ => ⟨0x1000, 0xF000⟩
  | .call _ => ⟨0x2000, 0xF000⟩
  | .seKk _ _ => ⟨0x3000, 0xF000⟩
  | .sneKk _ _ => ⟨0x4000, 0xF000⟩
  | .seVy _ _ => ⟨0x5000, 0xF000⟩
  | .ldKk _ _ => ⟨0x6000, 0xF000⟩
  | .addKk _ _ => ⟨0x7000, 0xF000⟩
  | .ldVy _ _ => ⟨0x8000, 0xF00F⟩
  | .orVy _ _ => ⟨0x8001, 0xF00F⟩
  | .andVy _ _ => ⟨0x8002, 0xF00F⟩
  | .xorVy _ _ => ⟨0x8003, 0xF00F⟩
  | .addVy _ _ => ⟨0x8004, 0xF00F⟩
  | .subVy _ _ => ⟨0x8005, 0xF00F⟩
  | .shr _ => ⟨0x8006, 0xF00F⟩
  | .subnVy _ _ => ⟨0x8007, 0xF00F⟩
  | .shl _ => ⟨0x800E, 0xF00F⟩
  | .sneVy _ _ => ⟨0x9000, 0xF000⟩
  | .ldI _ => ⟨0xA000, 0xF000⟩
  | .jpV0 _ => ⟨0xB000, 0xF000⟩
  | .rnd _ _ => ⟨0xC000, 0xF000⟩
  | .drw _ _ _ => ⟨0xD000, 0xF000⟩
  | .skp _ => ⟨0xE00E, 0xF00F⟩
  | .sknp _ => ⟨0xE001, 0xF00F⟩
  | .ldVxDT _ => ⟨0xF007, 0xF0FF⟩
  | .ldVxK _ => ⟨0xF00A, 0xF0FF⟩
  | .ldDTVx _ => ⟨0xF015, 0xF0FF⟩
  | .ldSTVx _ => ⟨0xF018, 0xF0FF⟩
  | .addI _ => ⟨0xF01E, 0xF0FF⟩
  | .ldF _ => ⟨0xF029, 0xF0FF⟩
  | .ldB _ => ⟨0xF033, 0xF0FF⟩
  | .storeRegs _ => ⟨0xF055, 0xF0FF⟩
  | .loadRegs _ => ⟨0xF065, 0xF0FF⟩

/-- The bits of the word an instruction's row reads: all but those R80 calls ignored. -/
def usedBits : Instr → Word
  | .cls => 0xF00F
  | .ret => 0xF00F
  | .seVy _ _ => 0xFFF0
  | .sneVy _ _ => 0xFFF0
  | .shr _ => 0xFF0F
  | .shl _ => 0xFF0F
  | .skp _ => 0xFF0F
  | .sknp _ => 0xFF0F
  | .jp _ | .call _ | .seKk _ _ | .sneKk _ _ | .ldKk _ _ | .addKk _ _ | .ldVy _ _ | .orVy _ _ | .andVy _ _ | .xorVy _ _
  | .addVy _ _ | .subVy _ _ | .subnVy _ _ | .ldI _ | .jpV0 _ | .rnd _ _ | .drw _ _ _ | .ldVxDT _ | .ldVxK _ | .ldDTVx _
  | .ldSTVx _ | .addI _ | .ldF _ | .ldB _ | .storeRegs _ | .loadRegs _ => 0xFFFF

/-- The 34 rows of the opcode map, in the order of R80. -/
def opcodeMap : List OpcodeRow :=
  [⟨0x0000, 0xF00F⟩, ⟨0x000E, 0xF00F⟩, ⟨0x1000, 0xF000⟩, ⟨0x2000, 0xF000⟩, ⟨0x3000, 0xF000⟩, ⟨0x4000, 0xF000⟩,
   ⟨0x5000, 0xF000⟩, ⟨0x6000, 0xF000⟩, ⟨0x7000, 0xF000⟩] ++
  [⟨0x8000, 0xF00F⟩, ⟨0x8001, 0xF00F⟩, ⟨0x8002, 0xF00F⟩, ⟨0x8003, 0xF00F⟩, ⟨0x8004, 0xF00F⟩, ⟨0x8005, 0xF00F⟩,
   ⟨0x8006, 0xF00F⟩, ⟨0x8007, 0xF00F⟩, ⟨0x800E, 0xF00F⟩] ++
  [⟨0x9000, 0xF000⟩, ⟨0xA000, 0xF000⟩, ⟨0xB000, 0xF000⟩, ⟨0xC000, 0xF000⟩, ⟨0xD000, 0xF000⟩, ⟨0xE00E, 0xF00F⟩,
   ⟨0xE001, 0xF00F⟩] ++
  [⟨0xF007, 0xF0FF⟩, ⟨0xF00A, 0xF0FF⟩, ⟨0xF015, 0xF0FF⟩, ⟨0xF018, 0xF0FF⟩, ⟨0xF01E, 0xF0FF⟩, ⟨0xF029, 0xF0FF⟩,
   ⟨0xF033, 0xF0FF⟩, ⟨0xF055, 0xF0FF⟩, ⟨0xF065, 0xF0FF⟩]

/-- A word of format `F nnn`. -/
def encodeNnn (op : Nibble) (nnn : Addr) : Word := op ++ nnn

/-- A word of format `F x kk`. -/
def encodeXkk (op : Nibble) (x : RegIx) (kk : Byte) : Word := op ++ x ++ kk

/-- A word of format `F x y n`. -/
def encodeXyn (op : Nibble) (x y : RegIx) (n : Nibble) : Word := op ++ x ++ y ++ n

/-- The canonical word of an instruction (R85): `00E0`, `00EE`, `Ex9E`, `ExA1` as spelt, other ignored fields 0. -/
def encode : Instr → Word
  | .cls => 0x00E0
  | .ret => 0x00EE
  | .jp nnn => encodeNnn 0x1 nnn
  | .call nnn => encodeNnn 0x2 nnn
  | .seKk x kk => encodeXkk 0x3 x kk
  | .sneKk x kk => encodeXkk 0x4 x kk
  | .seVy x y => encodeXyn 0x5 x y 0x0
  | .ldKk x kk => encodeXkk 0x6 x kk
  | .addKk x kk => encodeXkk 0x7 x kk
  | .ldVy x y => encodeXyn 0x8 x y 0x0
  | .orVy x y => encodeXyn 0x8 x y 0x1
  | .andVy x y => encodeXyn 0x8 x y 0x2
  | .xorVy x y => encodeXyn 0x8 x y 0x3
  | .addVy x y => encodeXyn 0x8 x y 0x4
  | .subVy x y => encodeXyn 0x8 x y 0x5
  | .shr x => encodeXyn 0x8 x 0x0 0x6
  | .subnVy x y => encodeXyn 0x8 x y 0x7
  | .shl x => encodeXyn 0x8 x 0x0 0xE
  | .sneVy x y => encodeXyn 0x9 x y 0x0
  | .ldI nnn => encodeNnn 0xA nnn
  | .jpV0 nnn => encodeNnn 0xB nnn
  | .rnd x kk => encodeXkk 0xC x kk
  | .drw x y n => encodeXyn 0xD x y n
  | .skp x => encodeXkk 0xE x 0x9E
  | .sknp x => encodeXkk 0xE x 0xA1
  | .ldVxDT x => encodeXkk 0xF x 0x07
  | .ldVxK x => encodeXkk 0xF x 0x0A
  | .ldDTVx x => encodeXkk 0xF x 0x15
  | .ldSTVx x => encodeXkk 0xF x 0x18
  | .addI x => encodeXkk 0xF x 0x1E
  | .ldF x => encodeXkk 0xF x 0x29
  | .ldB x => encodeXkk 0xF x 0x33
  | .storeRegs x => encodeXkk 0xF x 0x55
  | .loadRegs x => encodeXkk 0xF x 0x65

end Sys2Proof
end

