-- ==== Sys2Proof/Config.lean ====
section
/-! DEFINITION. What an implementation of CHIP8-CORE fixes (00_scope.md R6): the named addresses and sizes,
the parameters SPRITE_EDGE and FONT, and the free random byte. -/

namespace Sys2Proof

/-- Parameter `SPRITE_EDGE` (R193): what a sprite pixel outside the 64 x 32 grid does. -/
inductive SpriteEdge where
  | clip
  | wrap
  | fault
  deriving DecidableEq, Repr

/-- Parameter `FONT` (R52): 16 glyphs of 5 bytes, glyph 0 first, top row first. -/
abbrev Font := Vector Byte 80

/-- `MEM_SIZE` (R6). -/
def Config.memSize : Nat := 4096

/-- `LOAD_ADDR` (R6): the program-load address and the reset pc. -/
def Config.loadAddr : Nat := 0x200

/-- `MAX_PROGRAM` (R6). -/
def Config.maxProgram : Nat := 3584

/-- `FONT_BASE` (R6). -/
def Config.fontBase : Nat := 0x050

/-- `GLYPH_BYTES` (R6). -/
def Config.glyphBytes : Nat := 5

/-- The default FONT's glyphs, digit 0 first (R52). PRESUMED: the spec takes them from general knowledge
(log entry 2). Unsafe for a claim about glyph pixels that does not name its font. -/
def Config.defaultGlyphs : List (List Byte) :=
  [[0xF0, 0x90, 0x90, 0x90, 0xF0],
   [0x20, 0x60, 0x20, 0x20, 0x70],
   [0xF0, 0x10, 0xF0, 0x80, 0xF0],
   [0xF0, 0x10, 0xF0, 0x10, 0xF0],
   [0x90, 0x90, 0xF0, 0x10, 0x10],
   [0xF0, 0x80, 0xF0, 0x10, 0xF0],
   [0xF0, 0x80, 0xF0, 0x90, 0xF0],
   [0xF0, 0x10, 0x20, 0x40, 0x40],
   [0xF0, 0x90, 0xF0, 0x90, 0xF0],
   [0xF0, 0x90, 0xF0, 0x10, 0xF0],
   [0xF0, 0x90, 0xF0, 0x90, 0x90],
   [0xE0, 0x90, 0xE0, 0x90, 0xE0],
   [0xF0, 0x80, 0x80, 0x80, 0xF0],
   [0xE0, 0x90, 0x90, 0x90, 0xE0],
   [0xF0, 0x80, 0xF0, 0x80, 0xF0],
   [0xF0, 0x80, 0xF0, 0x80, 0x80]]

/-- The default of parameter `FONT` (R6, R52). -/
def Config.defaultFont : Font := ⟨Config.defaultGlyphs.flatten.toArray, by decide⟩

/-- The default of parameter `SPRITE_EDGE` (R6, R193). -/
def Config.defaultSpriteEdge : SpriteEdge := .clip

/-- The random byte `rnd` of the cycle with draw index `k` (R35, D13): a FREE VALUE, under no law.
It has no body, so no proof can know one of its values (log entry 3). -/
opaque Config.rnd : Nat → Byte

end Sys2Proof
end

