-- ==== Sys2Proof/Machine/State.lean ====
section
/-! DEFINITION. The machine state record of 10_state.md R20, as plain data, with the fault register (R33), the block's
parameter SPRITE_EDGE (R193), the cycle's scratch values (R9, R34, R35) and the draw index of the free random byte; the
outcomes' reason types; and the state after reset (70_reset_and_hazards.md R270). -/

namespace Sys2Proof.Machine

/-- The 4096-byte memory (R30, R50): the cells that differ from the reset contents, addresses strictly rising.
`Memory.unlisted` (Ops.lean) is what an unlisted address reads as; `Memory.wf` is the canonical form. -/
abbrev Memory := List Host.Cell

/-- V0 to VF (R21). -/
abbrev Registers := Vector Byte 16

/-- The 64 x 32 one-bit pixels (R31): row 0 on top, column 0 leftmost; `fb[py][px]` is `fb(px, py)`. -/
abbrev Framebuffer := Vector (Vector Bool 64) 32

/-- The fault causes of 60_exceptions.md R241, in the order of their codes 1 to 6. -/
inductive FaultCause where
  /-- Code 1: `pc ≥ 0xFFF` at the fetch (R101). -/
  | fetchOutOfRange
  /-- Code 2: a data address `≥ 4096` (R54). -/
  | memoryOutOfRange
  /-- Code 3: 2nnn with `sp = 16` (R143). -/
  | stackOverflow
  /-- Code 4: 00EE with `sp = 0` (R141). -/
  | stackUnderflow
  /-- Code 5: Ex9E or ExA1 with `V[x] ≥ 16` (R211, R212). -/
  | keyIndexOutOfRange
  /-- Code 6: Dxyn with `SPRITE_EDGE = fault`, a set sprite bit outside the grid (R193). -/
  | spriteOutOfBounds
  deriving DecidableEq, Repr

/-- `F(info)` of `raise F(info)` (R10): what an instruction raises. -/
structure Raised where
  cause : FaultCause
  info : BitVec 17
  deriving DecidableEq, Repr

/-- The fault register's record (R33). -/
structure FaultRecord where
  cause : FaultCause
  addr : Word
  word : Word
  info : BitVec 17
  deriving DecidableEq, Repr

/-- The scratch values a cycle fixes before its execute step (R9, R100): the instruction's address `a`, its word `w`
(R34) and the random byte `rnd` (R35). The model's own field, no state between cycles (log entry 5). -/
structure Scratch where
  addr : Word
  word : Word
  rnd : Byte
  deriving DecidableEq, Repr

/-- The scratch values between cycles. DESIGN CHOICE 0 (log entry 5). -/
def Scratch.idle : Scratch := ⟨0, 0, 0⟩

/-- Why the HOST's outcome `fault` would be given. The faults of R241 are not these: the core takes them, in a next
state whose `fault` register holds the record (R243), and then stays stopped (R244). -/
inductive Fault where
  /-- Raised by nobody: no behaviour of this spec is stuck (93_implementation_defined.md §1). Safe. -/
  | neverRaised
  deriving DecidableEq, Repr

/-- Why a step would be refused. Every instruction has its meaning, so no arm refuses. -/
inductive Refusal where
  /-- An instruction without a meaning, rejected by name in `exec`'s arm. Raised by nobody now. Safe. -/
  | notModelled (mnemonic : String)
  deriving DecidableEq, Repr

/-- Everything the spec gives the machine (R20), then three fields of the model's own. -/
structure State where
  /-- Memory (R30). -/
  mem : Memory
  /-- General registers; V[15] is the flag VF (R21, R24). -/
  V : Registers
  /-- Index register (R25). -/
  I : Word
  /-- Program counter (R23). -/
  pc : Word
  /-- Call stack; entries from `sp` up are stale (R26, R36). -/
  stack : Vector Word 16
  /-- Stack pointer, 0..16 (R27). -/
  sp : Fin 17
  /-- Delay timer (R28). -/
  DT : Byte
  /-- Sound timer (R28). -/
  ST : Byte
  /-- Framebuffer (R31). -/
  fb : Framebuffer
  /-- Key-state vector, written by the host only (R32). -/
  keys : Vector Bool 16
  /-- Fault register (R33). -/
  fault : Option FaultRecord
  /-- The block's parameter SPRITE_EDGE (R193); no step changes it (log entry 1). -/
  spriteEdge : SpriteEdge
  /-- The running cycle's scratch values (log entry 5). -/
  scratch : Scratch
  /-- The index of the next free random byte (log entry 4). -/
  draw : Nat
  deriving DecidableEq, Repr

/-- What an instruction or a step answers. -/
abbrev Result := Host.Outcome State Fault Refusal

/-- The machine right after `Init()` (R270), with the default FONT and SPRITE_EDGE (R6). -/
def State.reset : State where
  mem := []
  V := Vector.replicate 16 0
  I := 0
  pc := 0x200
  stack := Vector.replicate 16 0
  sp := 0
  DT := 0
  ST := 0
  fb := Vector.replicate 32 (Vector.replicate 64 false)
  keys := Vector.replicate 16 false
  fault := none
  spriteEdge := Config.defaultSpriteEdge
  scratch := Scratch.idle
  draw := 0

end Sys2Proof.Machine
end

