-- ==== Sys2Proof/Machine/Ops.lean ====
section
/-! DEFINITION. The named operations over memory, registers, stack, timers, framebuffer and the fault register that the
meanings are written in (10_state.md, 20_memory.md, 40_cycle.md, 60_exceptions.md). -/

namespace Sys2Proof.Machine

/-- What an unlisted address reads as: the reset contents (R30, R52, R270), the default FONT at 0x050..0x09F and 0
elsewhere (log entry 7). Outside the address space it is 0 and `memRead` never asks (log entry 8). -/
def Memory.unlisted (a : Nat) : Byte :=
  if Config.fontBase ≤ a then Config.defaultFont.toList.getD (a - Config.fontBase) 0 else 0

/-- The byte at an address. -/
def Memory.read : Memory → Nat → Byte
  | [], a => Memory.unlisted a
  | (b, v) :: rest, a => if a = b then v else Memory.read rest a

/-- The memory with one byte written, in canonical form: a byte equal to the unlisted one has no cell. -/
def Memory.write : Memory → Nat → Byte → Memory
  | [], a, v => if v = Memory.unlisted a then [] else [(a, v)]
  | (b, u) :: rest, a, v =>
    if a < b then (if v = Memory.unlisted a then (b, u) :: rest else (a, v) :: (b, u) :: rest)
    else if a = b then (if v = Memory.unlisted a then rest else (a, v) :: rest)
    else (b, u) :: Memory.write rest a v

/-- The canonical form: addresses strictly rising and inside the address space, no cell equal to the unlisted byte. -/
abbrev Memory.wf (m : Memory) : Prop :=
  m.Pairwise (fun c d => c.1 < d.1) ∧ ∀ c ∈ m, c.1 < Config.memSize ∧ c.2 ≠ Memory.unlisted c.1

/-- `MemRead(addr, 1)` (R54). -/
def memRead (m : Memory) (addr : Nat) : Except Raised Byte :=
  if Config.memSize ≤ addr then .error ⟨.memoryOutOfRange, BitVec.ofNat 17 addr⟩ else .ok (m.read addr)

/-- `MemWrite(addr, 1, v)` (R54). -/
def memWrite (m : Memory) (addr : Nat) (v : Byte) : Except Raised Memory :=
  if Config.memSize ≤ addr then .error ⟨.memoryOutOfRange, BitVec.ofNat 17 addr⟩ else .ok (m.write addr v)

/-- `MemWrite` of each byte in turn at `addr`, `addr + 1`, …; the first failing address raises (R246). -/
def memWriteBytes (m : Memory) (addr : Nat) : List Byte → Except Raised Memory
  | [] => .ok m
  | v :: vs =>
    match memWrite m addr v with
    | .error r => .error r
    | .ok m' => memWriteBytes m' (addr + 1) vs

/-- `MemRead` of `n` bytes in turn at `addr`, `addr + 1`, …; the first failing address raises (R246). -/
def memReadBytes (m : Memory) (addr : Nat) : Nat → Except Raised (List Byte)
  | 0 => .ok []
  | n + 1 =>
    match memRead m addr with
    | .error r => .error r
    | .ok v =>
      match memReadBytes m (addr + 1) n with
      | .error r => .error r
      | .ok vs => .ok (v :: vs)

/-- `Fetch(a)` (R101): checked before either byte is read, then the word high byte first (R56). -/
def fetch (m : Memory) (a : Word) : Except Raised Word :=
  if Config.memSize ≤ a.toNat + 1 then .error ⟨.fetchOutOfRange, BitVec.ofNat 17 a.toNat⟩
  else .ok (wordOfBytes (m.read a.toNat) (m.read (a.toNat + 1)))

/-- `V[x]` (R10). -/
def State.reg (s : State) (x : RegIx) : Byte := s.V[x.toNat]'x.isLt

/-- `V[x] <- v` (R10). -/
def State.setReg (s : State) (x : RegIx) (v : Byte) : State := { s with V := s.V.set x.toNat v x.isLt }

/-- The number of the flag register VF (R24). -/
def flagReg : RegIx := 0xF

/-- `V[15] <- v` (R24). -/
def State.setFlag (s : State) (v : Byte) : State := s.setReg flagReg v

/-- `V[i]`, `V[i+1]`, … take the bytes of the list. -/
def setRegsFrom (V : Registers) (i : Nat) : List Byte → Registers
  | [] => V
  | v :: vs => setRegsFrom (V.setIfInBounds i v) (i + 1) vs

/-- `pc <- target` (R10). -/
def State.setPc (s : State) (target : Word) : State := { s with pc := target }

/-- `pc <- (pc + 2) mod 2^16`: the advance of R102, and a taken skip (R140). -/
def State.advancePc (s : State) : State := s.setPc (s.pc + 2)

/-- A conditional skip of one instruction (R140). -/
def State.skipIf (s : State) (c : Bool) : State := if c then s.advancePc else s

/-- `I <- v` (R25). -/
def State.setI (s : State) (v : Word) : State := { s with I := v }

/-- `DT <- v` (R28). -/
def State.setDT (s : State) (v : Byte) : State := { s with DT := v }

/-- `ST <- v` (R28). -/
def State.setST (s : State) (v : Byte) : State := { s with ST := v }

/-- Memory as a store leaves it. -/
def State.setMem (s : State) (m : Memory) : State := { s with mem := m }

/-- The framebuffer as a display instruction leaves it. -/
def State.setFb (s : State) (f : Framebuffer) : State := { s with fb := f }

/-- The general registers as a block load leaves them. -/
def State.setV (s : State) (V : Registers) : State := { s with V := V }

/-- `stack[sp] <- v; sp <- sp + 1`, or StackOverflow(16) when `sp = 16` (R143). -/
def State.push (s : State) (v : Word) : Except Raised State :=
  if h : s.sp.val < 16 then .ok { s with stack := s.stack.set s.sp.val v h, sp := ⟨s.sp.val + 1, by omega⟩ }
  else .error ⟨.stackOverflow, 16⟩

/-- `sp <- sp - 1; pc <- stack[sp]`, or StackUnderflow(0) when `sp = 0` (R141); the entry stays (R36). -/
def State.popPc (s : State) : Except Raised State :=
  if h : 0 < s.sp.val then
    .ok { s with sp := ⟨s.sp.val - 1, by omega⟩, pc := s.stack[s.sp.val - 1]'(by omega) }
  else .error ⟨.stackUnderflow, 0⟩

/-- `fb(px, py)` (R31). -/
def Framebuffer.pixel (f : Framebuffer) (px : Fin 64) (py : Fin 32) : Bool := f[py][px]

/-- `fb(px, py) <- b` (R31). -/
def Framebuffer.setPixel (f : Framebuffer) (px : Fin 64) (py : Fin 32) (b : Bool) : Framebuffer :=
  f.set py.val (f[py].set px.val b px.isLt) py.isLt

/-- Every pixel off (R191). -/
def Framebuffer.blank : Framebuffer := Vector.replicate 32 (Vector.replicate 64 false)

/-- The code of a cause; 0 is `none` (R241). -/
def FaultCause.code : FaultCause → Nat
  | .fetchOutOfRange => 1
  | .memoryOutOfRange => 2
  | .stackOverflow => 3
  | .stackUnderflow => 4
  | .keyIndexOutOfRange => 5
  | .spriteOutOfBounds => 6

/-- TAKING A FAULT (R242, R243): from the state the instruction started with, `pc` goes back to its address and the fault
register takes (cause, addr, word, info); nothing else is written. The block has no handler and no return from a fault
(R245): only `Init` (HostOps.lean) clears the register (R244). -/
def State.takeFault (s : State) (r : Raised) : State :=
  { s with pc := s.scratch.addr, fault := some ⟨r.cause, s.scratch.addr, s.scratch.word, r.info⟩ }

/-- An instruction's end: its writes take effect, or it raised and the fault is taken from the state it started with. -/
def commit (s : State) : Except Raised State → Result
  | .ok t => .next t
  | .error r => .next (s.takeFault r)

/-- `if T > 0 then T <- T - 1` (R104). -/
def countdown (t : Byte) : Byte := if 0 < t then t - 1 else t

/-- Both timers count down (R104). -/
def State.countdownTimers (s : State) : State := { s with DT := countdown s.DT, ST := countdown s.ST }

/-- A cycle's start: its address, word and random byte are fixed (R9, R100). -/
def State.latch (s : State) (w : Word) (rnd : Byte) : State := { s with scratch := ⟨s.pc, w, rnd⟩ }

/-- A cycle's end: the countdown and the next draw, unless it faulted (R104, R243); the scratch values are dropped (R34). -/
def State.endCycle (s : State) : State :=
  match s.fault with
  | none => { s.countdownTimers with scratch := Scratch.idle, draw := s.draw + 1 }
  | some _ => { s with scratch := Scratch.idle }

end Sys2Proof.Machine
end

