-- ==== Sys2Proof/Machine/Flags.lean ====
section
/-! DEFINITION. The values VF takes as a flag (10_state.md R24, 41_arithmetic.md R127 to R131): 0 or 1. -/

namespace Sys2Proof.Machine

/-- 1 or 0. -/
def flagOf (b : Bool) : Byte := if b then 1 else 0

/-- The carry of 8xy4: 1 if the sum exceeds 255 (R127). -/
def carryFlag (a b : Byte) : Byte := flagOf (decide (255 < a.toNat + b.toNat))

/-- The flag of 8xy5 and 8xy7: 1 if `a > b` strictly (R128, R130). -/
def greaterFlag (a b : Byte) : Byte := flagOf (decide (b.toNat < a.toNat))

/-- The bit 8xy6 shifts out (R129). -/
def lowBitFlag (a : Byte) : Byte := a &&& 1

/-- The bit 8xyE shifts out (R131). -/
def highBitFlag (a : Byte) : Byte := a >>> 7

end Sys2Proof.Machine
end

