-- ==== Sys2Proof/Machine/Operands.lean ====
section
/-! DEFINITION. The operand forms (30_encoding.md R72, 43_memory_ops.md R160): immediates, the address I + k, a register
block, the BCD digits, the glyph address and the key a register names. -/

namespace Sys2Proof.Machine

/-- `zext_16(nnn)` (R72). -/
def zextAddr (nnn : Addr) : Word := nnn.zeroExtend 16

/-- `zext_16(v)` of a register value (R72). -/
def zextByte (v : Byte) : Word := v.zeroExtend 16

/-- `I + k` as a natural number, not truncated (R55, R160). -/
def State.indexAddr (s : State) (k : Nat) : Nat := s.I.toNat + k

/-- V0 to Vx in ascending order (R165). -/
def State.regsUpTo (s : State) (x : RegIx) : List Byte := s.V.toList.take (x.toNat + 1)

/-- Hundreds, tens and ones of a byte (R164). -/
def bcdDigits (v : Byte) : List Byte :=
  [BitVec.ofNat 8 (v.toNat / 100), BitVec.ofNat 8 (v.toNat / 10 % 10), BitVec.ofNat 8 (v.toNat % 10)]

/-- `0x050 + 5 · v`, unmasked (R163). -/
def glyphAddr (v : Byte) : Word := BitVec.ofNat 16 (Config.fontBase + Config.glyphBytes * v.toNat)

/-- `keys[k]` for the key a register value names, or KeyIndexOutOfRange(k) when `k ≥ 16` (R211, R212). -/
def State.keyAt (s : State) (k : Byte) : Except Raised Bool :=
  if h : k.toNat < 16 then .ok (s.keys[k.toNat]'h) else .error ⟨.keyIndexOutOfRange, k.zeroExtend 17⟩

/-- The lowest pressed key, scanning 0 to 15 (R213). -/
def State.firstKey (s : State) : Option Nat := s.keys.toList.findIdx? (fun b => b)

end Sys2Proof.Machine
end

