-- ==== Sys2Proof/Machine/Arithmetic.lean ====
section
/-! DEFINITION. The 12 arithmetic and logic instructions (41_arithmetic.md). Statements are ordered: where VF is an
operand, `V[x]` is computed from the registers as the flag's write left them (00_scope.md R9, R120, D10). -/

namespace Sys2Proof.Machine

/-- `6xkk` (R121). -/
def execLdKk (x : RegIx) (kk : Byte) (s : State) : Result := .next (s.setReg x kk)

/-- `7xkk`: no flag (R122). -/
def execAddKk (x : RegIx) (kk : Byte) (s : State) : Result := .next (s.setReg x (s.reg x + kk))

/-- `8xy0` (R123). -/
def execLdVy (x y : RegIx) (s : State) : Result := .next (s.setReg x (s.reg y))

/-- `8xy1`: no flag (R124). -/
def execOrVy (x y : RegIx) (s : State) : Result := .next (s.setReg x (s.reg x ||| s.reg y))

/-- `8xy2`: no flag (R125). -/
def execAndVy (x y : RegIx) (s : State) : Result := .next (s.setReg x (s.reg x &&& s.reg y))

/-- `8xy3`: no flag (R126). -/
def execXorVy (x y : RegIx) (s : State) : Result := .next (s.setReg x (s.reg x ^^^ s.reg y))

/-- `8xy4`: the sum is of the values before the instruction (R127). -/
def execAddVy (x y : RegIx) (s : State) : Result :=
  .next ((s.setFlag (carryFlag (s.reg x) (s.reg y))).setReg x (s.reg x + s.reg y))

/-- `8xy5`: the difference is of the registers as the flag's write left them (R128). -/
def execSubVy (x y : RegIx) (s : State) : Result :=
  let t := s.setFlag (greaterFlag (s.reg x) (s.reg y))
  .next (t.setReg x (t.reg x - t.reg y))

/-- `8xy6`: y is ignored (R129). -/
def execShr (x : RegIx) (s : State) : Result :=
  let t := s.setFlag (lowBitFlag (s.reg x))
  .next (t.setReg x (t.reg x >>> 1))

/-- `8xy7` (R130). -/
def execSubnVy (x y : RegIx) (s : State) : Result :=
  let t := s.setFlag (greaterFlag (s.reg y) (s.reg x))
  .next (t.setReg x (t.reg y - t.reg x))

/-- `8xyE`: y is ignored (R131). -/
def execShl (x : RegIx) (s : State) : Result :=
  let t := s.setFlag (highBitFlag (s.reg x))
  .next (t.setReg x (t.reg x <<< 1))

/-- `Cxkk`: the random byte is the cycle's free input (R132, R35). -/
def execRnd (x : RegIx) (kk : Byte) (s : State) : Result := .next (s.setReg x (s.scratch.rnd &&& kk))

end Sys2Proof.Machine
end

