-- ==== Sys2Proof/Machine/Control.lean ====
section
/-! DEFINITION. The 8 control-flow instructions (42_control_flow.md). On entry `pc` holds a + 2 (40_cycle.md R102). -/

namespace Sys2Proof.Machine

/-- `00EE` (R141). -/
def execRet (s : State) : Result := commit s s.popPc

/-- `1nnn` (R142). -/
def execJp (nnn : Addr) (s : State) : Result := .next (s.setPc (zextAddr nnn))

/-- `2nnn`: the pushed pc is a + 2 (R143). -/
def execCall (nnn : Addr) (s : State) : Result :=
  commit s ((s.push s.pc).map (fun t => t.setPc (zextAddr nnn)))

/-- `3xkk` (R144). -/
def execSeKk (x : RegIx) (kk : Byte) (s : State) : Result := .next (s.skipIf (s.reg x == kk))

/-- `4xkk` (R145). -/
def execSneKk (x : RegIx) (kk : Byte) (s : State) : Result := .next (s.skipIf (s.reg x != kk))

/-- `5xy0` (R146). -/
def execSeVy (x y : RegIx) (s : State) : Result := .next (s.skipIf (s.reg x == s.reg y))

/-- `9xy0` (R147). -/
def execSneVy (x y : RegIx) (s : State) : Result := .next (s.skipIf (s.reg x != s.reg y))

/-- `Bnnn`: always V0 (R148). -/
def execJpV0 (nnn : Addr) (s : State) : Result := .next (s.setPc (zextByte (s.reg 0) + zextAddr nnn))

end Sys2Proof.Machine
end

