-- ==== Sys2Proof/Machine/Display.lean ====
section
/-! DEFINITION. The 2 display instructions (45_display.md). -/

namespace Sys2Proof.Machine

/-- What a draw changes as it goes: the framebuffer and VF (R192). -/
structure Canvas where
  fb : Framebuffer
  vf : Byte
  deriving DecidableEq, Repr

/-- `Plot(px, py)` inside the grid (R192): VF becomes 1 if the pixel is on, then the pixel is toggled. -/
def plotInside (c : Canvas) (px : Fin 64) (py : Fin 32) : Canvas where
  fb := c.fb.setPixel px py (!c.fb.pixel px py)
  vf := if c.fb.pixel px py then 1 else c.vf

/-- `Plot(px, py)`, with SPRITE_EDGE outside the grid (R192, R193). -/
def plot (edge : SpriteEdge) (c : Canvas) (px py : Nat) : Except Raised Canvas :=
  if h : px < 64 ∧ py < 32 then .ok (plotInside c ⟨px, h.1⟩ ⟨py, h.2⟩)
  else
    match edge with
    | .clip => .ok c
    | .wrap => .ok (plotInside c (Fin.ofNat 64 px) (Fin.ofNat 32 py))
    | .fault => .error ⟨.spriteOutOfBounds, BitVec.ofNat 17 (py * 64 + px)⟩

/-- The columns of one sprite row at `(ox, py)`, bit 7 - c being column c (R190, R192). -/
def drawRow (edge : SpriteEdge) (row : Byte) (ox py : Nat) : List Nat → Canvas → Except Raised Canvas
  | [], k => .ok k
  | c :: cs, k =>
    if row.getLsbD (7 - c) then
      match plot edge k (ox + c) py with
      | .error r => .error r
      | .ok k' => drawRow edge row ox py cs k'
    else drawRow edge row ox py cs k

/-- The rows of a sprite at `(ox, oy)`, row r read from `base + r` before its pixels are plotted (R192, R246). -/
def drawRows (edge : SpriteEdge) (m : Memory) (base ox oy : Nat) : List Nat → Canvas → Except Raised Canvas
  | [], k => .ok k
  | r :: rs, k =>
    match memRead m (base + r) with
    | .error e => .error e
    | .ok row =>
      match drawRow edge row ox (oy + r) (List.range 8) k with
      | .error e => .error e
      | .ok k' => drawRows edge m base ox oy rs k'

/-- `Vx mod 64`, the draw origin's column (R190). -/
def State.originX (s : State) (x : RegIx) : Nat := (s.reg x).toNat % 64

/-- `Vy mod 32`, the draw origin's row (R190). -/
def State.originY (s : State) (y : RegIx) : Nat := (s.reg y).toNat % 32

/-- `00E0` (R191). -/
def execCls (s : State) : Result := .next (s.setFb Framebuffer.blank)

/-- `Dxyn`: the origin is read before VF is cleared (R192, D11). -/
def execDrw (x y : RegIx) (n : Nibble) (s : State) : Result :=
  commit s ((drawRows s.spriteEdge s.mem (s.indexAddr 0) (s.originX x) (s.originY y) (List.range n.toNat) ⟨s.fb, 0⟩).map
    (fun k => (s.setFb k.fb).setFlag k.vf))

end Sys2Proof.Machine
end

