-- ==== Sys2Proof/Machine/Input.lean ====
section
/-! DEFINITION. The 3 input instructions (46_input.md): level tests of the key-state vector (R210). -/

namespace Sys2Proof.Machine

/-- `Ex9E` (R211). -/
def execSkp (x : RegIx) (s : State) : Result := commit s ((s.keyAt (s.reg x)).map (fun b => s.skipIf b))

/-- `ExA1` (R212). -/
def execSknp (x : RegIx) (s : State) : Result := commit s ((s.keyAt (s.reg x)).map (fun b => s.skipIf (!b)))

/-- `Fx0A`: the lowest pressed key, or back to re-execute (R213). -/
def execLdVxK (x : RegIx) (s : State) : Result :=
  match s.firstKey with
  | some k => .next (s.setReg x (BitVec.ofNat 8 k))
  | none => .next (s.setPc (s.pc - 2))

end Sys2Proof.Machine
end

