-- ==== Sys2Proof/Machine/MemoryOps.lean ====
section
/-! DEFINITION. The 6 index-register and memory instructions (43_memory_ops.md). No access changes I (R160). -/

namespace Sys2Proof.Machine

/-- `Annn` (R161). -/
def execLdI (nnn : Addr) (s : State) : Result := .next (s.setI (zextAddr nnn))

/-- `Fx1E`: mod 2^16, no flag (R162). -/
def execAddI (x : RegIx) (s : State) : Result := .next (s.setI (s.I + zextByte (s.reg x)))

/-- `Fx29` (R163). -/
def execLdF (x : RegIx) (s : State) : Result := .next (s.setI (glyphAddr (s.reg x)))

/-- `Fx33` (R164). -/
def execLdB (x : RegIx) (s : State) : Result :=
  commit s ((memWriteBytes s.mem (s.indexAddr 0) (bcdDigits (s.reg x))).map s.setMem)

/-- `Fx55` (R165). -/
def execStoreRegs (x : RegIx) (s : State) : Result :=
  commit s ((memWriteBytes s.mem (s.indexAddr 0) (s.regsUpTo x)).map s.setMem)

/-- `Fx65` (R166). -/
def execLoadRegs (x : RegIx) (s : State) : Result :=
  commit s ((memReadBytes s.mem (s.indexAddr 0) (x.toNat + 1)).map (fun vs => s.setV (setRegsFrom s.V 0 vs)))

end Sys2Proof.Machine
end

