-- ==== Sys2Proof/Machine/Timer.lean ====
section
/-! DEFINITION. The 3 timer instructions (44_timer.md). The countdown follows at the cycle's end (R104, R180). -/

namespace Sys2Proof.Machine

/-- `Fx07` (R181). -/
def execLdVxDT (x : RegIx) (s : State) : Result := .next (s.setReg x s.DT)

/-- `Fx15` (R182). -/
def execLdDTVx (x : RegIx) (s : State) : Result := .next (s.setDT (s.reg x))

/-- `Fx18` (R183). -/
def execLdSTVx (x : RegIx) (s : State) : Result := .next (s.setST (s.reg x))

end Sys2Proof.Machine
end

