-- ==== Sys2Proof/Machine/Cycle.lean ====
section
/-! DEFINITION. The cycle operation (40_cycle.md R100): fetch, advance, decode and execute, countdown. -/

namespace Sys2Proof.Machine

/-- A decode miss executes nothing (R79, R103). -/
def execMiss (_ : Miss) (s : State) : Result := .next s

/-- `Execute(Decode(w))` (R103). -/
def executeWord (w : Word) (s : State) : Result :=
  match decode w with
  | .instr i => exec i s
  | .miss m => execMiss m s

/-- The end of the cycle, put after whatever the execute step answers (R104). -/
def finishCycle : Result → Result
  | .next t => .next t.endCycle
  | .fault r => .fault r
  | .refused r => .refused r

/-- `Cycle(keys, rnd)` (R100), the keys being those the state holds. -/
def cycle (rnd : Byte) (s : State) : Result :=
  match s.fault with
  | some _ => .next s
  | none =>
    match fetch s.mem s.pc with
    | .error r => finishCycle (.next ((s.latch 0 rnd).takeFault r))
    | .ok w => finishCycle (executeWord w (s.latch w rnd).advancePc)

/-- The address `withFetchWord` places its word at: the pc, or the load address where no word can be fetched. -/
def fetchPlace (s : State) : Word :=
  if s.pc.toNat + 1 < Config.memSize then s.pc else BitVec.ofNat 16 Config.loadAddr

/-- The word stored at that address, high byte first (R56), on a core that runs (R244). -/
def placeWord (s : State) (w : Word) : State :=
  let a := fetchPlace s
  { s with
    mem := (s.mem.write a.toNat (hiByte w)).write (a.toNat + 1) (loByte w)
    pc := a
    fault := none }

end Sys2Proof.Machine
end

