-- ==== Sys2Proof/Machine/Step.lean ====
section
/-! DEFINITION. One step of the machine: one cycle (40_cycle.md R100) with the free random byte of its draw index. -/

namespace Sys2Proof.Machine

/-- One `Cycle` with the byte the random source gives (R35). -/
def step (s : State) : Host.Outcome State Fault Refusal := cycle (Config.rnd s.draw) s

/-- `s` with the word `w` of the opcode table where `step` fetches next, on a core that runs (log entry 11). -/
def State.withFetchWord (s : State) (nbits w : Nat) : State := placeWord s (BitVec.ofNat 16 (w % 2 ^ nbits))

end Sys2Proof.Machine
end

