-- ==== Sys2Proof/Machine/Assembly.lean ====
section
/-! DEFINITION. The assembler syntax of 30_encoding.md R84, over texts as lists of characters: operands, instruction lines,
labels, DW and DB, and the canonical words they stand for (R85). No state of the machine depends on it. -/

namespace Sys2Proof.Machine

/-- The mnemonics of R80's column (R84). -/
inductive Mnemonic where
  | cls | ret | jp | call | se | sne | ld | add | or | and | xor | sub | shr | subn | shl | rnd | drw | skp | sknp
  deriving DecidableEq, Repr

/-- An operand of R84: a register, a number, a label, or one of the seven keywords. -/
inductive AsmOperand where
  | reg (x : RegIx)
  | num (v : Nat)
  | label (name : List Char)
  /-- `DT` -/
  | delay
  /-- `ST` -/
  | sound
  /-- `K` -/
  | key
  /-- `I` -/
  | index
  /-- `F` -/
  | font
  /-- `B` -/
  | bcd
  /-- `[I]` -/
  | atIndex
  deriving DecidableEq, Repr

/-- A line of R84: an instruction with its operands, destination first; a label's place; `DW v`; `DB b`. -/
inductive AsmLine where
  | op (m : Mnemonic) (operands : List AsmOperand)
  | label (name : List Char)
  | dw (v : Nat)
  | db (v : Nat)
  deriving DecidableEq, Repr

/-- A number `nnn` in its range (R84). -/
def asAddr (v : Nat) : Option Addr := if WellFormed.addr v then some (BitVec.ofNat 12 v) else none

/-- A number `kk` in its range (R84). -/
def asByte (v : Nat) : Option Byte := if WellFormed.byte v then some (BitVec.ofNat 8 v) else none

/-- A number `n` in its range (R84). -/
def asNibble (v : Nat) : Option Nibble := if WellFormed.nibble v then some (BitVec.ofNat 4 v) else none

/-- The LD lines (rows 8, 10, 20, 26 to 29 and 31 to 34 of R80). -/
def asmLd : List AsmOperand → Option Instr
  | [.reg x, .num v] => (asByte v).map (.ldKk x)
  | [.reg x, .reg y] => some (.ldVy x y)
  | [.index, .num v] => (asAddr v).map .ldI
  | [.reg x, .delay] => some (.ldVxDT x)
  | [.reg x, .key] => some (.ldVxK x)
  | [.delay, .reg x] => some (.ldDTVx x)
  | [.sound, .reg x] => some (.ldSTVx x)
  | [.font, .reg x] => some (.ldF x)
  | [.bcd, .reg x] => some (.ldB x)
  | [.atIndex, .reg x] => some (.storeRegs x)
  | [.reg x, .atIndex] => some (.loadRegs x)
  | _ => none

/-- The instruction a mnemonic and its operands stand for, labels resolved (R80, R84). -/
def asmInstr (m : Mnemonic) (operands : List AsmOperand) : Option Instr :=
  match m, operands with
  | .cls, [] => some .cls
  | .ret, [] => some .ret
  | .jp, [.num v] => (asAddr v).map .jp
  | .jp, [.reg x, .num v] => if x = 0 then (asAddr v).map .jpV0 else none
  | .call, [.num v] => (asAddr v).map .call
  | .se, [.reg x, .num v] => (asByte v).map (.seKk x)
  | .se, [.reg x, .reg y] => some (.seVy x y)
  | .sne, [.reg x, .num v] => (asByte v).map (.sneKk x)
  | .sne, [.reg x, .reg y] => some (.sneVy x y)
  | .ld, os => asmLd os
  | .add, [.reg x, .num v] => (asByte v).map (.addKk x)
  | .add, [.reg x, .reg y] => some (.addVy x y)
  | .add, [.index, .reg x] => some (.addI x)
  | .or, [.reg x, .reg y] => some (.orVy x y)
  | .and, [.reg x, .reg y] => some (.andVy x y)
  | .xor, [.reg x, .reg y] => some (.xorVy x y)
  | .sub, [.reg x, .reg y] => some (.subVy x y)
  | .shr, [.reg x] => some (.shr x)
  | .subn, [.reg x, .reg y] => some (.subnVy x y)
  | .shl, [.reg x] => some (.shl x)
  | .rnd, [.reg x, .num v] => (asByte v).map (.rnd x)
  | .drw, [.reg x, .reg y, .num v] => (asNibble v).map (.drw x y)
  | .skp, [.reg x] => some (.skp x)
  | .sknp, [.reg x] => some (.sknp x)
  | _, _ => none

/-- The line R80's column gives an instruction. -/
def asmOf : Instr → Mnemonic × List AsmOperand
  | .cls => (.cls, [])
  | .ret => (.ret, [])
  | .jp nnn => (.jp, [.num nnn.toNat])
  | .call nnn => (.call, [.num nnn.toNat])
  | .seKk x kk => (.se, [.reg x, .num kk.toNat])
  | .sneKk x kk => (.sne, [.reg x, .num kk.toNat])
  | .seVy x y => (.se, [.reg x, .reg y])
  | .ldKk x kk => (.ld, [.reg x, .num kk.toNat])
  | .addKk x kk => (.add, [.reg x, .num kk.toNat])
  | .ldVy x y => (.ld, [.reg x, .reg y])
  | .orVy x y => (.or, [.reg x, .reg y])
  | .andVy x y => (.and, [.reg x, .reg y])
  | .xorVy x y => (.xor, [.reg x, .reg y])
  | .addVy x y => (.add, [.reg x, .reg y])
  | .subVy x y => (.sub, [.reg x, .reg y])
  | .shr x => (.shr, [.reg x])
  | .subnVy x y => (.subn, [.reg x, .reg y])
  | .shl x => (.shl, [.reg x])
  | .sneVy x y => (.sne, [.reg x, .reg y])
  | .ldI nnn => (.ld, [.index, .num nnn.toNat])
  | .jpV0 nnn => (.jp, [.reg 0, .num nnn.toNat])
  | .rnd x kk => (.rnd, [.reg x, .num kk.toNat])
  | .drw x y n => (.drw, [.reg x, .reg y, .num n.toNat])
  | .skp x => (.skp, [.reg x])
  | .sknp x => (.sknp, [.reg x])
  | .ldVxDT x => (.ld, [.reg x, .delay])
  | .ldVxK x => (.ld, [.reg x, .key])
  | .ldDTVx x => (.ld, [.delay, .reg x])
  | .ldSTVx x => (.ld, [.sound, .reg x])
  | .addI x => (.add, [.index, .reg x])
  | .ldF x => (.ld, [.font, .reg x])
  | .ldB x => (.ld, [.bcd, .reg x])
  | .storeRegs x => (.ld, [.atIndex, .reg x])
  | .loadRegs x => (.ld, [.reg x, .atIndex])

/-- The bytes a line takes. -/
def AsmLine.size : AsmLine → Nat
  | .op _ _ => 2
  | .label _ => 0
  | .dw _ => 2
  | .db _ => 1

/-- The labels of some lines whose first byte is at `a`, each with its absolute address (R84). -/
def labelTable (a : Nat) : List AsmLine → List (List Char × Nat)
  | [] => []
  | .label name :: rest => (name, a) :: labelTable a rest
  | line :: rest => labelTable (a + line.size) rest

/-- A label stands for its address (R84); a name without a place stays a label, and no line takes that. -/
def AsmOperand.resolve (labels : List (List Char × Nat)) : AsmOperand → AsmOperand
  | .label name =>
    match labels.lookup name with
    | some a => .num a
    | none => .label name
  | o => o

/-- The bytes of one line (R84, R85): an instruction's canonical word and `DW`'s word high byte first, `DB`'s one byte. -/
def asmLine (labels : List (List Char × Nat)) : AsmLine → Option (List Byte)
  | .op m os => (asmInstr m (os.map (AsmOperand.resolve labels))).map (fun i => bytesOfWord (encode i))
  | .label _ => some []
  | .dw v => if v < 65536 then some (bytesOfWord (BitVec.ofNat 16 v)) else none
  | .db v => (asByte v).map (fun b => [b])

/-- The bytes of some lines under given labels. -/
def asmLines (labels : List (List Char × Nat)) : List AsmLine → Option (List Byte)
  | [] => some []
  | line :: rest =>
    match asmLine labels line, asmLines labels rest with
    | some bs, some cs => some (bs ++ cs)
    | _, _ => none

/-- The bytes of a program that LoadProgram places at 0x200. A label placed twice is refused (log entry 20). -/
def assemble (lines : List AsmLine) : Option (List Byte) :=
  let labels := labelTable Config.loadAddr lines
  if (labels.map Prod.fst).Nodup then asmLines labels lines else none

/-- A hex digit's number. -/
def hexDigit (c : Char) : Option Nat :=
  let k := c.toNat
  if 48 ≤ k ∧ k ≤ 57 then some (k - 48)
  else if 65 ≤ k ∧ k ≤ 70 then some (k - 55)
  else if 97 ≤ k ∧ k ≤ 102 then some (k - 87)
  else none

/-- Digits in a base, after those that make `acc`. -/
def readDigits (base acc : Nat) : List Char → Option Nat
  | [] => some acc
  | c :: cs =>
    match hexDigit c with
    | some d => if d < base then readDigits base (base * acc + d) cs else none
    | none => none

/-- A number: `0x` hex, or decimal (R84). -/
def readNumber : List Char → Option Nat
  | [] => none
  | ['0', 'x'] => none
  | '0' :: 'x' :: cs => readDigits 16 0 cs
  | c :: cs => readDigits 10 0 (c :: cs)

/-- The keywords of R84. -/
def keywords : List (List Char × AsmOperand) :=
  [(['D', 'T'], .delay), (['S', 'T'], .sound), (['K'], .key), (['I'], .index), (['F'], .font), (['B'], .bcd),
   (['[', 'I', ']'], .atIndex)]

/-- A register: `V` and one hex digit (R84). -/
def readReg : List Char → Option RegIx
  | ['V', c] => (hexDigit c).map (BitVec.ofNat 4)
  | _ => none

/-- One operand's text: a keyword, a register, a number, or else a label that begins with a letter (R84, log entry 20). -/
def readOperand (cs : List Char) : Option AsmOperand :=
  match keywords.lookup cs with
  | some o => some o
  | none =>
    match readReg cs with
    | some x => some (.reg x)
    | none =>
      match readNumber cs with
      | some v => some (.num v)
      | none => if (cs.head?.any Char.isAlpha) then some (.label cs) else none

/-- The mnemonics' texts. -/
def mnemonics : List (List Char × Mnemonic) :=
  [(['C', 'L', 'S'], .cls), (['R', 'E', 'T'], .ret), (['J', 'P'], .jp), (['C', 'A', 'L', 'L'], .call), (['S', 'E'], .se),
   (['S', 'N', 'E'], .sne), (['L', 'D'], .ld), (['A', 'D', 'D'], .add), (['O', 'R'], .or), (['A', 'N', 'D'], .and)] ++
  [(['X', 'O', 'R'], .xor), (['S', 'U', 'B'], .sub), (['S', 'H', 'R'], .shr), (['S', 'U', 'B', 'N'], .subn),
   (['S', 'H', 'L'], .shl), (['R', 'N', 'D'], .rnd), (['D', 'R', 'W'], .drw), (['S', 'K', 'P'], .skp),
   (['S', 'K', 'N', 'P'], .sknp)]

/-- A text cut at its commas (R84). -/
def splitCommas : List Char → List (List Char)
  | [] => [[]]
  | ',' :: cs => [] :: splitCommas cs
  | c :: cs =>
    match splitCommas cs with
    | [] => [[c]]
    | w :: ws => (c :: w) :: ws

/-- The operands of a line, the spaces left out. -/
def readOperands (cs : List Char) : Option (List AsmOperand) :=
  match cs.filter (fun c => c != ' ') with
  | [] => some []
  | cs => (splitCommas cs).mapM readOperand

/-- A line's text: a mnemonic, `DW` or `DB`, a space, and the operands separated by commas (R84). -/
def readLine (cs : List Char) : Option AsmLine :=
  let head := cs.takeWhile (fun c => c != ' ')
  let tail := cs.dropWhile (fun c => c != ' ')
  match mnemonics.lookup head, readOperands tail with
  | some m, some os => some (.op m os)
  | none, some [.num v] => if head = ['D', 'W'] then some (.dw v) else if head = ['D', 'B'] then some (.db v) else none
  | _, _ => none

end Sys2Proof.Machine
end

