-- ==== Sys2Proof/Machine/HostOps.lean ====
section
/-! DEFINITION. The host's other operations on the block (60_exceptions.md R255), each between cycles (R66). -/

namespace Sys2Proof.Machine

/-- What LoadProgram returns (R65). -/
inductive LoadStatus where
  | ok
  | loadError
  deriving DecidableEq, Repr

/-- The bytes written in turn at `addr`, `addr + 1`, …, with no check. -/
def Memory.writeAll (m : Memory) (addr : Nat) : List Byte → Memory
  | [] => m
  | v :: vs => Memory.writeAll (m.write addr v) (addr + 1) vs

/-- Memory after Init with a given FONT: the font at 0x050, 0 elsewhere (R270). -/
def Memory.ofFont (font : Font) : Memory := Memory.writeAll [] Config.fontBase font.toList

/-- `Init()` of a block whose parameters are `font` and `edge` (R270); the draws go on, since the random source is not
of the block (R35, log entry 4). -/
def init (font : Font) (edge : SpriteEdge) (s : State) : State :=
  { State.reset with mem := Memory.ofFont font, spriteEdge := edge, draw := s.draw }

/-- `LoadProgram(bytes, N)` (R65): the check first, and a failing load writes nothing. -/
def loadProgram (bytes : List Byte) (s : State) : State × LoadStatus :=
  if Config.maxProgram < bytes.length then (s, .loadError)
  else (s.setMem (s.mem.writeAll Config.loadAddr bytes), .ok)

/-- `SetKey(k, b)` (R255). -/
def setKey (k : Nibble) (b : Bool) (s : State) : State := { s with keys := s.keys.set k.toNat b k.isLt }

/-- `ReadFramebuffer()`: 2048 pixels, pixel `(px, py)` being element `py·64 + px` (R31). -/
def readFramebuffer (s : State) : List Bool := (s.fb.toList.map Vector.toList).flatten

/-- `ReadSound()` (R256). -/
def readSound (s : State) : Byte := s.ST

/-- `ReadFault()` (R33): the record, `none` while the core runs. -/
def readFault (s : State) : Option FaultRecord := s.fault

end Sys2Proof.Machine
end

