-- ==== Sys2Proof/Safety.lean ====
section
/-! DEFINITION. The terms the statements use: what an instruction may write (its frame), the record a fault leaves and the
state that explains it (60_exceptions.md R241), the idle state (70_reset_and_hazards.md R280), the step invariant. -/

namespace Sys2Proof.Machine

/-- The parts of the state an instruction may write. -/
structure Touch where
  regs : List RegIx := []
  cells : List Nat := []
  index : Bool := false
  pc : Bool := false
  stack : Bool := false
  sp : Bool := false
  delay : Bool := false
  sound : Bool := false
  screen : Bool := false
  deriving DecidableEq, Repr

/-- Every part of the state outside `w` is the same in `t` as in `s`: every register, every byte of memory, every special
register, the framebuffer; and the keys, the fault register, the parameter and the model's own fields always. -/
def Frame (w : Touch) (s t : State) : Prop :=
  (∀ r, r ∉ w.regs → t.reg r = s.reg r) ∧
  (∀ a, a ∉ w.cells → t.mem.read a = s.mem.read a) ∧
  (w.index = false → t.I = s.I) ∧
  (w.pc = false → t.pc = s.pc) ∧
  (w.stack = false → t.stack = s.stack) ∧
  (w.sp = false → t.sp = s.sp) ∧
  (w.delay = false → t.DT = s.DT) ∧
  (w.sound = false → t.ST = s.ST) ∧
  (w.screen = false → t.fb = s.fb) ∧
  t.keys = s.keys ∧ t.fault = s.fault ∧ t.spriteEdge = s.spriteEdge ∧ t.scratch = s.scratch ∧ t.draw = s.draw

/-- The `n` addresses from `I` on, as the stores compute them (R160). -/
def State.indexCells (s : State) (n : Nat) : List Nat := (List.range n).map (fun k => s.indexAddr 0 + k)

/-- V0 to Vx. -/
def regsThrough (x : RegIx) : List RegIx := (List.range (x.toNat + 1)).map (BitVec.ofNat 4)

/-- What each instruction may write when it completes (R22 for the registers, R24 for VF, R140 for the pc). -/
def touches : Instr → State → Touch
  | .cls, _ => { screen := true }
  | .ret, _ => { pc := true, sp := true }
  | .jp _, _ => { pc := true }
  | .call _, _ => { pc := true, stack := true, sp := true }
  | .seKk _ _, _ => { pc := true }
  | .sneKk _ _, _ => { pc := true }
  | .seVy _ _, _ => { pc := true }
  | .ldKk x _, _ => { regs := [x] }
  | .addKk x _, _ => { regs := [x] }
  | .ldVy x _, _ => { regs := [x] }
  | .orVy x _, _ => { regs := [x] }
  | .andVy x _, _ => { regs := [x] }
  | .xorVy x _, _ => { regs := [x] }
  | .addVy x _, _ => { regs := [x, flagReg] }
  | .subVy x _, _ => { regs := [x, flagReg] }
  | .shr x, _ => { regs := [x, flagReg] }
  | .subnVy x _, _ => { regs := [x, flagReg] }
  | .shl x, _ => { regs := [x, flagReg] }
  | .sneVy _ _, _ => { pc := true }
  | .ldI _, _ => { index := true }
  | .jpV0 _, _ => { pc := true }
  | .rnd x _, _ => { regs := [x] }
  | .drw _ _ _, _ => { regs := [flagReg], screen := true }
  | .skp _, _ => { pc := true }
  | .sknp _, _ => { pc := true }
  | .ldVxDT x, _ => { regs := [x] }
  | .ldVxK x, _ => { regs := [x], pc := true }
  | .ldDTVx _, _ => { delay := true }
  | .ldSTVx _, _ => { sound := true }
  | .addI _, _ => { index := true }
  | .ldF _, _ => { index := true }
  | .ldB _, s => { cells := s.indexCells 3 }
  | .storeRegs x, s => { cells := s.indexCells (x.toNat + 1) }
  | .loadRegs x, _ => { regs := regsThrough x }

/-- The state a raised fault leaves at the end of the execute step: the state the instruction started with, but for the pc,
which is back at the instruction, and the fault register (R242, R243). -/
def faulted (s : State) (cause : FaultCause) (info : Nat) : State :=
  { s with pc := s.scratch.addr, fault := some ⟨cause, s.scratch.addr, s.scratch.word, BitVec.ofNat 17 info⟩ }

/-- The record says of the state it left what R241's row for its cause says: who raises it, on what condition, and the info.
Since nothing of the faulting cycle was committed (R243), the state still shows the condition. -/
def FaultRecord.Explains (r : FaultRecord) (s : State) : Prop :=
  r.addr = s.pc ∧
  match r.cause with
  | .fetchOutOfRange => 0xFFF ≤ s.pc.toNat ∧ r.word = 0 ∧ r.info.toNat = s.pc.toNat
  | .memoryOutOfRange => fetch s.mem s.pc = .ok r.word ∧ r.info.toNat = max 4096 s.I.toNat ∧
      ((∃ x y n, decode r.word = .instr (.drw x y n) ∧ 0 < n.toNat ∧ 4096 ≤ s.I.toNat + (n.toNat - 1)) ∨
       (∃ x, decode r.word = .instr (.ldB x) ∧ 4096 ≤ s.I.toNat + 2) ∨
       (∃ x, (decode r.word = .instr (.storeRegs x) ∨ decode r.word = .instr (.loadRegs x)) ∧
         4096 ≤ s.I.toNat + x.toNat))
  | .stackOverflow => fetch s.mem s.pc = .ok r.word ∧ s.sp.val = 16 ∧ r.info = 16 ∧
      ∃ nnn, decode r.word = .instr (.call nnn)
  | .stackUnderflow => fetch s.mem s.pc = .ok r.word ∧ s.sp.val = 0 ∧ r.info = 0 ∧ decode r.word = .instr .ret
  | .keyIndexOutOfRange => fetch s.mem s.pc = .ok r.word ∧
      ∃ x, (decode r.word = .instr (.skp x) ∨ decode r.word = .instr (.sknp x)) ∧
        16 ≤ (s.reg x).toNat ∧ r.info.toNat = (s.reg x).toNat
  | .spriteOutOfBounds => fetch s.mem s.pc = .ok r.word ∧ s.spriteEdge = .fault ∧
      ∃ x y n row col, decode r.word = .instr (.drw x y n) ∧ row < n.toNat ∧ col < 8 ∧
        (s.mem.read (s.indexAddr 0 + row)).getLsbD (7 - col) = true ∧
        ¬(s.originX x + col < 64 ∧ s.originY y + row < 32) ∧
        r.info.toNat = (s.originY y + row) * 64 + (s.originX x + col)

/-- What every step keeps: memory is canonical, the scratch values are dropped, and a recorded fault is explained by the
state that stands still under it (R243, R244). -/
def State.Inv (s : State) : Prop :=
  s.mem.wf ∧ s.scratch = Scratch.idle ∧ ∀ r, s.fault = some r → r.Explains s

/-- A state is idle when its fetched word is a jump to its own address (R280). -/
def State.Idle (s : State) : Prop :=
  s.fault = none ∧ ∃ w nnn, fetch s.mem s.pc = .ok w ∧ decode w = .instr (.jp nnn) ∧ nnn.toNat = s.pc.toNat

/-- Row `r`, column `c` of the sprite at `I` is set (R190). -/
def State.spriteBit (s : State) (r c : Nat) : Bool := (s.mem.read (s.indexAddr 0 + r)).getLsbD (7 - c)

/-- The sprite of `Dxyn` has a set bit that lands on pixel `(px, py)` under the state's SPRITE_EDGE (R190, R193): inside
the grid at `(ox + c, oy + r)` itself, and, where the policy is `wrap`, at that position modulo the grid's size. -/
def State.Covers (s : State) (x y : RegIx) (n : Nibble) (px : Fin 64) (py : Fin 32) : Prop :=
  ∃ r c, r < n.toNat ∧ c < 8 ∧ s.spriteBit r c = true ∧
    ((s.originX x + c = px.val ∧ s.originY y + r = py.val) ∨
     (s.spriteEdge = .wrap ∧ (s.originX x + c) % 64 = px.val ∧ (s.originY y + r) % 32 = py.val))

/-- A set bit at row `r`, column `c` of the sprite of `Dxyn` lands outside the 64 x 32 grid (R190, R193). -/
def State.Overhangs (s : State) (x y : RegIx) (r c : Nat) : Prop :=
  c < 8 ∧ s.spriteBit r c = true ∧ ¬(s.originX x + c < 64 ∧ s.originY y + r < 32)

end Sys2Proof.Machine
end

