-- ==== Sys2Proof/Certificates/Slice0/Obligations.lean ====
section
/-! DEFINITION. The statements for the provers, one definition each; OBLIGATIONS.json lists them in this order. -/

open Sys2Proof Sys2Proof.Machine

/-- Decoding the canonical word of any instruction gives the instruction back, as a word and from bytes. (R80, R85, R70) -/
def Obligations.EncodedInstructionDecodesToItself : Prop :=
  ∀ (i : Instr) (rest : List Byte),
    decode (encode i) = .instr i ∧ decodeBytes (bytesOfWord (encode i) ++ rest) = .instr i

/-- Every word decodes to the one row of the opcode map it selects, or to a miss when it selects none. (R80) -/
def Obligations.DecodedInstructionIsTheRowTheOpcodeMapSelects : Prop :=
  ∀ w : Word,
    (∀ i, decode w = .instr i →
      opcodeRow i ∈ opcodeMap ∧ (opcodeRow i).selects w = true ∧
      (∀ r ∈ opcodeMap, r.selects w = true → r = opcodeRow i) ∧ w &&& usedBits i = encode i &&& usedBits i) ∧
    (∀ m, decode w = .miss m → ∀ r ∈ opcodeMap, r.selects w = false)

/-- The decode misses are exactly the words of families 0, 8, E and F with an unmapped key. (R82, R74, R75, R76, R77) -/
def Obligations.DecodeMissesAreExactlyTheUnmappedKeys : Prop :=
  ∀ w : Word,
    (∃ m, decode w = .miss m) ↔
      (w.toNat / 4096 = 0x0 ∧ w.toNat % 16 ≠ 0x0 ∧ w.toNat % 16 ≠ 0xE) ∨
      (w.toNat / 4096 = 0x8 ∧ ((0x8 ≤ w.toNat % 16 ∧ w.toNat % 16 ≤ 0xD) ∨ w.toNat % 16 = 0xF)) ∨
      (w.toNat / 4096 = 0xE ∧ w.toNat % 16 ≠ 0x1 ∧ w.toNat % 16 ≠ 0xE) ∨
      (w.toNat / 4096 = 0xF ∧
        w.toNat % 256 ∉ [0x07, 0x0A, 0x15, 0x18, 0x1E, 0x29, 0x33, 0x55, 0x65])

/-- op, x, y, n, kk and nnn are the bit fields the spec names. (R71, R7) -/
def Obligations.InstructionFieldsAreTheNamedBits : Prop :=
  ∀ w : Word,
    (opField w).toNat = w.toNat / 4096 ∧ (xField w).toNat = w.toNat / 256 % 16 ∧
    (yField w).toNat = w.toNat / 16 % 16 ∧ (nField w).toNat = w.toNat % 16 ∧
    (kkField w).toNat = w.toNat % 256 ∧ (nnnField w).toNat = w.toNat % 4096

/-- Words the spec writes out decode to the instructions it names. (R74, R76, R78, R80) -/
def Obligations.SampleWordsDecodeAsTheSpecSpells : Prop :=
  decode 0x0000 = .instr .cls ∧ decode 0x00E0 = .instr .cls ∧ decode 0x0FF0 = .instr .cls ∧
    decode 0x00EE = .instr .ret ∧ decode 0x012E = .instr .ret ∧
    decode 0x6A5C = .instr (.ldKk 0xA 0x5C) ∧ decode 0x8F24 = .instr (.addVy 0xF 0x2) ∧
    decode 0xA250 = .instr (.ldI 0x250) ∧ decode 0x5123 = .instr (.seVy 0x1 0x2) ∧
    decode 0xD015 = .instr (.drw 0x0 0x1 0x5) ∧
    decode 0xE19E = .instr (.skp 0x1) ∧ decode 0xE1FE = .instr (.skp 0x1) ∧
    decode 0xE1A1 = .instr (.sknp 0x1) ∧ decode 0xE101 = .instr (.sknp 0x1) ∧
    decode 0xF315 = .instr (.ldDTVx 0x3) ∧
    decode 0x0123 = .miss .family0 ∧ decode 0x00EF = .miss .family0

/-- A step runs the instruction at the pc: exec of it after the advance, then the end of the cycle. (R100, R101, R102, R103) -/
def Obligations.StepRunsTheDecodedInstruction : Prop :=
  ∀ (s : State) (i : Instr),
    s.fault = none → s.pc.toNat + 1 < 4096 →
    decode (s.mem.read s.pc.toNat ++ s.mem.read (s.pc.toNat + 1)) = .instr i →
    step s =
      match exec i { s with
          pc := s.pc + 2
          scratch := ⟨s.pc, s.mem.read s.pc.toNat ++ s.mem.read (s.pc.toNat + 1), Config.rnd s.draw⟩ } with
      | .next t => .next t.endCycle
      | .fault r => .fault r
      | .refused r => .refused r

/-- A fetch reads two bytes high byte first at any pc, odd or even, and raises when a + 1 is outside memory. (R101) -/
def Obligations.FetchIsBigEndianAndRangeChecked : Prop :=
  ∀ (m : Memory) (a : Word),
    (4096 ≤ a.toNat + 1 → ∃ r, fetch m a = .error r ∧ r.cause = .fetchOutOfRange ∧ r.info.toNat = a.toNat) ∧
    (a.toNat + 1 < 4096 →
      ∃ w, fetch m a = .ok w ∧ w.toNat = (m.read a.toNat).toNat * 256 + (m.read (a.toNat + 1)).toNat)

/-- A cycle at pc 0xFFF or above records FetchOutOfRange and changes nothing else. (R101, R241, R242, R243) -/
def Obligations.FetchOutsideMemoryStopsTheCore : Prop :=
  ∀ s : State,
    s.fault = none → 0xFFF ≤ s.pc.toNat →
    step s = .next { s with
      fault := some ⟨.fetchOutOfRange, s.pc, 0, BitVec.ofNat 17 s.pc.toNat⟩, scratch := Scratch.idle }

/-- A decode miss advances the pc by 2, counts the timers down and writes nothing else. (R79) -/
def Obligations.DecodeMissIsANoOpOfOneCycle : Prop :=
  (∀ (s : State) (w : Word) (m : Miss),
      s.fault = none → fetch s.mem s.pc = .ok w → decode w = .miss m →
      step s = .next { s with
        pc := s.pc + 2
        DT := BitVec.ofNat 8 (s.DT.toNat - 1)
        ST := BitVec.ofNat 8 (s.ST.toNat - 1)
        scratch := Scratch.idle
        draw := s.draw + 1 }) ∧
    ∀ w : Word, (∃ i, decode w = .instr i) ∨ ∃ m, decode w = .miss m

/-- While a fault is recorded no number of cycles changes anything; Init clears it. (R244) -/
def Obligations.FaultedCoreStaysStopped : Prop :=
  (∀ (k : Nat) (s : State), s.fault ≠ none → Sys2Proof.core.run k s = .next s) ∧
    (∀ (font : Font) (edge : SpriteEdge) (s : State), (init font edge s).fault = none) ∧
    ∀ (bytes : List Byte) (k : Nibble) (b : Bool) (s : State),
      (loadProgram bytes s).1.fault = s.fault ∧ (setKey k b s).fault = s.fault

/-- No step ever gets stuck or is refused: every state has a next state. (R240, R79, 93_implementation_defined.md §1) -/
def Obligations.EveryStepAnswersANextState : Prop :=
  ∀ s : State, ∃ t, step s = .next t

/-- A cycle that faults changes only the fault register, which names the instruction. (R242, R243) -/
def Obligations.FaultingCycleCommitsNothing : Prop :=
  ∀ (s t : State) (r : FaultRecord),
    s.fault = none → step s = .next t → t.fault = some r →
    t = { s with fault := some r, scratch := Scratch.idle } ∧ r.addr = s.pc ∧
    ((r.cause = .fetchOutOfRange ∧ r.word = 0) ∨ (r.cause ≠ .fetchOutOfRange ∧ fetch s.mem s.pc = .ok r.word)) ∧
    (r.cause = .memoryOutOfRange → r.info.toNat = max 4096 s.I.toNat)

/-- Each recorded fault is raised by an instruction, on the condition and with the info of the table of causes. (R241, R65) -/
def Obligations.EveryFaultHasItsCauseConditionAndInfo : Prop :=
  (∀ (s t : State) (r : FaultRecord),
      s.fault = none → step s = .next t → t.fault = some r → r.Explains s) ∧
    (FaultCause.code .fetchOutOfRange = 1 ∧ FaultCause.code .memoryOutOfRange = 2 ∧
      FaultCause.code .stackOverflow = 3 ∧ FaultCause.code .stackUnderflow = 4 ∧
      FaultCause.code .keyIndexOutOfRange = 5 ∧ FaultCause.code .spriteOutOfBounds = 6) ∧
    ∀ (bytes : List Byte) (s : State), (loadProgram bytes s).1.fault = s.fault

/-- Every cycle that does not fault takes 1 from each timer that is not 0, after the execute step. (R104) -/
def Obligations.CompletedCycleCountsBothTimersDown : Prop :=
  ∀ (s t : State) (w : Word),
    s.fault = none → fetch s.mem s.pc = .ok w → step s = .next t → t.fault = none →
    ((∀ x, decode w ≠ .instr (.ldDTVx x)) → t.DT.toNat = s.DT.toNat - 1) ∧
    (∀ x, decode w = .instr (.ldDTVx x) → t.DT.toNat = (s.reg x).toNat - 1) ∧
    ((∀ x, decode w ≠ .instr (.ldSTVx x)) → t.ST.toNat = s.ST.toNat - 1) ∧
    (∀ x, decode w = .instr (.ldSTVx x) → t.ST.toNat = (s.reg x).toNat - 1)

/-- Every step keeps the invariant: canonical memory inside 4096 bytes, no scratch left, every recorded fault explained. (R241, R243, R244, R30, R34, R50) -/
def Obligations.StepKeepsMemoryCanonicalAndFaultsExplained : Prop :=
  ∀ s t : State, s.Inv → step s = .next t → t.Inv

/-- The state after reset meets the invariant every step keeps. (R270, R33, R34) -/
def Obligations.ResetMeetsTheStepInvariant : Prop :=
  State.reset.Inv

/-- Each of the 34 instructions writes only the parts of the state its rule names. (R22, R24, R26, R28, R31, R32, R140, R160) -/
def Obligations.EveryInstructionKeepsItsFrame : Prop :=
  ∀ (i : Instr) (s t : State),
    s.fault = none → exec i s = .next t → t.fault = none → Frame (touches i s) s t

/-- The core never writes the key-state vector, nor its parameter SPRITE_EDGE. (R32, R210, R6) -/
def Obligations.NoStepWritesTheKeysOrTheParameter : Prop :=
  ∀ s t : State, step s = .next t → t.keys = s.keys ∧ t.spriteEdge = s.spriteEdge

/-- Unless the fetched word is Cxkk, a cycle does the same whatever the random byte. (R35, R132) -/
def Obligations.OnlyRndReadsTheRandomByte : Prop :=
  ∀ (s : State) (b c : Byte),
    (∀ w x kk, fetch s.mem s.pc = .ok w → decode w ≠ .instr (.rnd x kk)) → cycle b s = cycle c s

/-- In an idle state every further cycle leaves everything as it is but the timers, which count down. (R280, R142, R104) -/
def Obligations.IdleStateStaysIdle : Prop :=
  ∀ (k : Nat) (s : State), s.Idle →
    ∃ t, Sys2Proof.core.run k s = .next t ∧ t.Idle ∧
      t.DT.toNat = s.DT.toNat - k ∧ t.ST.toNat = s.ST.toNat - k ∧
      t = { s with DT := t.DT, ST := t.ST, scratch := t.scratch, draw := t.draw }

/-- Init zeroes memory and registers, installs the font, sets pc to 0x200 and clears the rest. (R270) -/
def Obligations.InitSetsEveryResetValue : Prop :=
  ∀ (font : Font) (edge : SpriteEdge) (s : State),
    (∀ a, a < 4096 → (init font edge s).mem.read a =
      if 0x050 ≤ a ∧ a < 0x0A0 then font.toList.getD (a - 0x050) 0 else 0) ∧
    (∀ x, (init font edge s).reg x = 0) ∧
    (init font edge s).I = 0 ∧ (init font edge s).pc = 0x200 ∧
    (∀ j, j < 16 → (init font edge s).stack[j]? = some 0) ∧ (init font edge s).sp = 0 ∧
    (init font edge s).DT = 0 ∧ (init font edge s).ST = 0 ∧
    (∀ px py, (init font edge s).fb.pixel px py = false) ∧
    (∀ k, k < 16 → (init font edge s).keys[k]? = some false) ∧
    (init font edge s).fault = none

/-- The reset state is Init with the default FONT and SPRITE_EDGE (model choices of log entries 1, 2 and 4). (R6, R52, R193, R270) -/
def Obligations.ResetIsInitWithTheDefaultParameters : Prop :=
  ∀ s : State, init Config.defaultFont Config.defaultSpriteEdge s = { State.reset with draw := s.draw }

/-- LoadProgram copies the bytes to 0x200, or returns LoadError and changes nothing when they do not fit. (R65) -/
def Obligations.LoadProgramCopiesAllOrNothing : Prop :=
  ∀ (bytes : List Byte) (s : State), s.mem.wf →
    (3584 < bytes.length → loadProgram bytes s = (s, .loadError)) ∧
    (bytes.length ≤ 3584 →
      ∃ m, loadProgram bytes s = ({ s with mem := m }, .ok) ∧ m.wf ∧
        (∀ i, i < bytes.length → bytes[i]? = some (m.read (0x200 + i))) ∧
        ∀ a, a < 0x200 ∨ 0x200 + bytes.length ≤ a → m.read a = s.mem.read a)

/-- SetKey writes one key flag and nothing else; ReadSound and ReadFault show ST and the fault register. (R255, R32, R33, R256) -/
def Obligations.HostSetsOneKeyAndReadsSoundAndFault : Prop :=
  ∀ (s : State) (k : Nibble) (b : Bool),
    (setKey k b s).keys[k.toNat]? = some b ∧
    (∀ j, j ≠ k.toNat → (setKey k b s).keys[j]? = s.keys[j]?) ∧
    setKey k b s = { s with keys := (setKey k b s).keys } ∧
    readSound s = s.ST ∧ readFault s = s.fault

/-- ReadFramebuffer gives 2048 pixels, pixel (px, py) at element py*64 + px. (R31, R255) -/
def Obligations.FramebufferReadIsRowMajor : Prop :=
  ∀ s : State, (readFramebuffer s).length = 2048 ∧
    ∀ (px : Fin 64) (py : Fin 32), (readFramebuffer s)[py.val * 64 + px.val]? = some (s.fb.pixel px py)

/-- MemRead and MemWrite reach 0x000 to 0xFFF and raise MemoryOutOfRange with the address beyond. (R54) -/
def Obligations.MemoryAccessesAreRangeChecked : Prop :=
  ∀ (m : Memory) (addr : Nat) (v : Byte), m.wf → addr < 2 ^ 17 →
    (4096 ≤ addr → ∃ r, memRead m addr = .error r ∧ memWrite m addr v = .error r ∧
      r.cause = .memoryOutOfRange ∧ r.info.toNat = addr) ∧
    (addr < 4096 → memRead m addr = .ok (m.read addr) ∧
      ∃ m', memWrite m addr v = .ok m' ∧ m'.read addr = v ∧ ∀ b, b ≠ addr → m'.read b = m.read b)

/-- 6xkk writes kk to V[x] and nothing else. (R121) -/
def Obligations.LoadImmediateWritesKk : Prop :=
  ∀ (x : RegIx) (kk : Byte) (s : State),
    decode (0x6#4 ++ x ++ kk) = .instr (.ldKk x kk) ∧
    ∃ t, exec (.ldKk x kk) s = .next t ∧ t.reg x = kk ∧ Frame { regs := [x] } s t

/-- 7xkk adds kk to V[x] mod 256 and leaves VF alone. (R122) -/
def Obligations.AddImmediateWrapsWithoutFlag : Prop :=
  ∀ (x : RegIx) (kk : Byte) (s : State),
    decode (0x7#4 ++ x ++ kk) = .instr (.addKk x kk) ∧
    ∃ t, exec (.addKk x kk) s = .next t ∧ (t.reg x).toNat = ((s.reg x).toNat + kk.toNat) % 256 ∧
      Frame { regs := [x] } s t

/-- 8xy0, 8xy1, 8xy2 and 8xy3 write V[y], OR, AND and XOR to V[x] and touch no flag. (R123, R124, R125, R126) -/
def Obligations.RegisterMovesAndLogicLeaveTheFlag : Prop :=
  ∀ (x y : RegIx) (s : State),
    (decode (0x8#4 ++ x ++ y ++ 0x0#4) = .instr (.ldVy x y) ∧
      ∃ t, exec (.ldVy x y) s = .next t ∧ t.reg x = s.reg y ∧ Frame { regs := [x] } s t) ∧
    (decode (0x8#4 ++ x ++ y ++ 0x1#4) = .instr (.orVy x y) ∧
      ∃ t, exec (.orVy x y) s = .next t ∧ t.reg x = (s.reg x ||| s.reg y) ∧ Frame { regs := [x] } s t) ∧
    (decode (0x8#4 ++ x ++ y ++ 0x2#4) = .instr (.andVy x y) ∧
      ∃ t, exec (.andVy x y) s = .next t ∧ t.reg x = (s.reg x &&& s.reg y) ∧ Frame { regs := [x] } s t) ∧
    (decode (0x8#4 ++ x ++ y ++ 0x3#4) = .instr (.xorVy x y) ∧
      ∃ t, exec (.xorVy x y) s = .next t ∧ t.reg x = (s.reg x ^^^ s.reg y) ∧ Frame { regs := [x] } s t)

/-- 8xy4 writes the carry of V[x] + V[y] to VF, then the sum mod 256 to V[x]. (R127) -/
def Obligations.AddWithCarrySetsTheCarryOfTheOldValues : Prop :=
  ∀ (x y : RegIx) (s : State),
    decode (0x8#4 ++ x ++ y ++ 0x4#4) = .instr (.addVy x y) ∧
    ∃ t, exec (.addVy x y) s = .next t ∧
      (t.reg x).toNat = ((s.reg x).toNat + (s.reg y).toNat) % 256 ∧
      (x ≠ 0xF → t.reg 0xF = if 255 < (s.reg x).toNat + (s.reg y).toNat then 1 else 0) ∧
      Frame { regs := [x, 0xF] } s t

/-- 8xy5 writes V[x] > V[y] to VF, then V[x] - V[y] of the registers as just updated to V[x]. (R128) -/
def Obligations.SubtractReadsOperandsAfterTheFlag : Prop :=
  ∀ (x y : RegIx) (s : State) (f a b : Byte),
    f = (if (s.reg y).toNat < (s.reg x).toNat then 1 else 0) →
    a = (if x = 0xF then f else s.reg x) → b = (if y = 0xF then f else s.reg y) →
    decode (0x8#4 ++ x ++ y ++ 0x5#4) = .instr (.subVy x y) ∧
    ∃ t, exec (.subVy x y) s = .next t ∧ (t.reg x).toNat = (a.toNat + 256 - b.toNat) % 256 ∧
      (x ≠ 0xF → t.reg 0xF = f) ∧ Frame { regs := [x, 0xF] } s t

/-- 8xy7 writes V[y] > V[x] to VF, then V[y] - V[x] of the registers as just updated to V[x]. (R130) -/
def Obligations.ReverseSubtractReadsOperandsAfterTheFlag : Prop :=
  ∀ (x y : RegIx) (s : State) (f a b : Byte),
    f = (if (s.reg x).toNat < (s.reg y).toNat then 1 else 0) →
    a = (if x = 0xF then f else s.reg x) → b = (if y = 0xF then f else s.reg y) →
    decode (0x8#4 ++ x ++ y ++ 0x7#4) = .instr (.subnVy x y) ∧
    ∃ t, exec (.subnVy x y) s = .next t ∧ (t.reg x).toNat = (b.toNat + 256 - a.toNat) % 256 ∧
      (x ≠ 0xF → t.reg 0xF = f) ∧ Frame { regs := [x, 0xF] } s t

/-- 8xy6 and 8xyE shift V[x] by one and put the bit shifted out in VF, ignoring y. (R129, R131) -/
def Obligations.ShiftsMoveOneBitIntoTheFlag : Prop :=
  ∀ (x y : RegIx) (s : State),
    (decode (0x8#4 ++ x ++ y ++ 0x6#4) = .instr (.shr x) ∧
      ∃ t, exec (.shr x) s = .next t ∧
        (x ≠ 0xF → (t.reg x).toNat = (s.reg x).toNat / 2 ∧ (t.reg 0xF).toNat = (s.reg x).toNat % 2) ∧
        (x = 0xF → t.reg 0xF = 0) ∧ Frame { regs := [x, 0xF] } s t) ∧
    (decode (0x8#4 ++ x ++ y ++ 0xE#4) = .instr (.shl x) ∧
      ∃ t, exec (.shl x) s = .next t ∧
        (x ≠ 0xF → (t.reg x).toNat = (s.reg x).toNat * 2 % 256 ∧ (t.reg 0xF).toNat = (s.reg x).toNat / 128) ∧
        (x = 0xF → (t.reg 0xF).toNat = (s.reg 0xF).toNat / 128 * 2) ∧ Frame { regs := [x, 0xF] } s t)

/-- Cxkk writes the random byte of its cycle AND kk to V[x]. (R132) -/
def Obligations.RandomAndMaskUsesTheCyclesDraw : Prop :=
  ∀ (x : RegIx) (kk : Byte) (s : State),
    decode (0xC#4 ++ x ++ kk) = .instr (.rnd x kk) ∧
    (∃ t, exec (.rnd x kk) s = .next t ∧ t.reg x = (s.scratch.rnd &&& kk) ∧ Frame { regs := [x] } s t) ∧
    ∀ (b : Byte) (w : Word), s.fault = none → fetch s.mem s.pc = .ok w → decode w = .instr (.rnd x kk) →
      ∃ t, cycle b s = .next t ∧ t.reg x = (b &&& kk)

/-- 00EE takes sp down by 1 and pc from the entry there, or records StackUnderflow on an empty stack. (R141) -/
def Obligations.ReturnPopsTheStackOrFaults : Prop :=
  (∀ a b : Nibble, decode (0x0#4 ++ a ++ b ++ 0xE#4) = .instr .ret) ∧
    ∀ s : State,
      (0 < s.sp.val → ∃ t, exec .ret s = .next t ∧ t.sp.val = s.sp.val - 1 ∧
        s.stack[s.sp.val - 1]? = some t.pc ∧ Frame { pc := true, sp := true } s t) ∧
      (s.sp.val = 0 → exec .ret s = .next (faulted s .stackUnderflow 0))

/-- 1nnn sets pc to nnn. (R142) -/
def Obligations.JumpSetsThePc : Prop :=
  ∀ (nnn : Addr) (s : State),
    decode (0x1#4 ++ nnn) = .instr (.jp nnn) ∧
    ∃ t, exec (.jp nnn) s = .next t ∧ t.pc.toNat = nnn.toNat ∧ Frame { pc := true } s t

/-- 2nnn pushes the advanced pc and jumps to nnn, or records StackOverflow on a full stack. (R143) -/
def Obligations.CallPushesThePcOrFaults : Prop :=
  ∀ (nnn : Addr) (s : State),
    decode (0x2#4 ++ nnn) = .instr (.call nnn) ∧
    (s.sp.val < 16 → ∃ t, exec (.call nnn) s = .next t ∧
      t.stack[s.sp.val]? = some s.pc ∧ (∀ j, j ≠ s.sp.val → t.stack[j]? = s.stack[j]?) ∧
      t.sp.val = s.sp.val + 1 ∧ t.pc.toNat = nnn.toNat ∧
      Frame { pc := true, stack := true, sp := true } s t) ∧
    (s.sp.val = 16 → exec (.call nnn) s = .next (faulted s .stackOverflow 16))

/-- After a call, any state with the same stack and sp returns to the pc the call pushed. (R141, R143, R36) -/
def Obligations.CallThenReturnComesBack : Prop :=
  ∀ (nnn : Addr) (s : State), s.sp.val < 16 →
    ∃ t, exec (.call nnn) s = .next t ∧
      ∀ v : State, v.stack = t.stack → v.sp = t.sp →
        ∃ u, exec .ret v = .next u ∧ u.pc = s.pc ∧ u.sp = s.sp ∧ u.stack = t.stack

/-- 3xkk and 4xkk add 2 to pc when V[x] equals, or differs from, kk. (R144, R145) -/
def Obligations.ImmediateSkipsTestOneRegister : Prop :=
  ∀ (x : RegIx) (kk : Byte) (s : State),
    (decode (0x3#4 ++ x ++ kk) = .instr (.seKk x kk) ∧
      ∃ t, exec (.seKk x kk) s = .next t ∧ t.pc = (if s.reg x = kk then s.pc + 2 else s.pc) ∧
        Frame { pc := true } s t) ∧
    (decode (0x4#4 ++ x ++ kk) = .instr (.sneKk x kk) ∧
      ∃ t, exec (.sneKk x kk) s = .next t ∧ t.pc = (if s.reg x = kk then s.pc else s.pc + 2) ∧
        Frame { pc := true } s t)

/-- 5xyN and 9xyN add 2 to pc when V[x] equals, or differs from, V[y], for every N. (R146, R147) -/
def Obligations.RegisterSkipsTestTwoRegisters : Prop :=
  ∀ (x y : RegIx) (n : Nibble) (s : State),
    (decode (0x5#4 ++ x ++ y ++ n) = .instr (.seVy x y) ∧
      ∃ t, exec (.seVy x y) s = .next t ∧ t.pc = (if s.reg x = s.reg y then s.pc + 2 else s.pc) ∧
        Frame { pc := true } s t) ∧
    (decode (0x9#4 ++ x ++ y ++ n) = .instr (.sneVy x y) ∧
      ∃ t, exec (.sneVy x y) s = .next t ∧ t.pc = (if s.reg x = s.reg y then s.pc else s.pc + 2) ∧
        Frame { pc := true } s t)

/-- Bnnn sets pc to V0 + nnn with no bounds check; a target of 0xFFF or above faults at the next fetch. (R148) -/
def Obligations.JumpWithOffsetAddsV0 : Prop :=
  ∀ (nnn : Addr) (s : State),
    decode (0xB#4 ++ nnn) = .instr (.jpV0 nnn) ∧
    ∃ t, exec (.jpV0 nnn) s = .next t ∧ t.pc.toNat = (s.reg 0).toNat + nnn.toNat ∧ Frame { pc := true } s t ∧
      (0xFFF ≤ t.pc.toNat → fetch t.mem t.pc = .error ⟨.fetchOutOfRange, BitVec.ofNat 17 t.pc.toNat⟩)

/-- Annn sets I to nnn. (R161) -/
def Obligations.SetIndexWritesNnn : Prop :=
  ∀ (nnn : Addr) (s : State),
    decode (0xA#4 ++ nnn) = .instr (.ldI nnn) ∧
    ∃ t, exec (.ldI nnn) s = .next t ∧ t.I.toNat = nnn.toNat ∧ Frame { index := true } s t

/-- Fx1E adds V[x] to I mod 2^16 and leaves VF alone. (R162) -/
def Obligations.AddToIndexWrapsWithoutFlag : Prop :=
  ∀ (x : RegIx) (s : State),
    decode (0xF#4 ++ x ++ 0x1E#8) = .instr (.addI x) ∧
    ∃ t, exec (.addI x) s = .next t ∧ t.I.toNat = (s.I.toNat + (s.reg x).toNat) % 65536 ∧
      Frame { index := true } s t

/-- Fx29 sets I to 0x050 + 5 * V[x] for every value of V[x]. (R163) -/
def Obligations.GlyphAddressIsUnmasked : Prop :=
  ∀ (x : RegIx) (s : State),
    decode (0xF#4 ++ x ++ 0x29#8) = .instr (.ldF x) ∧
    ∃ t, exec (.ldF x) s = .next t ∧ t.I.toNat = 0x050 + 5 * (s.reg x).toNat ∧ Frame { index := true } s t

/-- Fx33 stores hundreds, tens and ones of V[x] at I, I+1, I+2, or records MemoryOutOfRange and stores nothing. (R164) -/
def Obligations.BcdStoresThreeDigitsOrFaults : Prop :=
  ∀ (x : RegIx) (s : State),
    decode (0xF#4 ++ x ++ 0x33#8) = .instr (.ldB x) ∧
    (s.mem.wf → s.I.toNat + 2 < 4096 → ∃ t, exec (.ldB x) s = .next t ∧
      (t.mem.read s.I.toNat).toNat = (s.reg x).toNat / 100 ∧
      (t.mem.read (s.I.toNat + 1)).toNat = (s.reg x).toNat / 10 % 10 ∧
      (t.mem.read (s.I.toNat + 2)).toNat = (s.reg x).toNat % 10 ∧
      Frame { cells := s.indexCells 3 } s t) ∧
    (4096 ≤ s.I.toNat + 2 → exec (.ldB x) s = .next (faulted s .memoryOutOfRange (max 4096 s.I.toNat)))

/-- Fx55 stores V0 to V[x] at I to I+x, or records MemoryOutOfRange and stores nothing. (R165) -/
def Obligations.BlockStoreCopiesRegistersOrFaults : Prop :=
  ∀ (x : RegIx) (s : State),
    decode (0xF#4 ++ x ++ 0x55#8) = .instr (.storeRegs x) ∧
    (s.mem.wf → s.I.toNat + x.toNat < 4096 → ∃ t, exec (.storeRegs x) s = .next t ∧
      (∀ i : RegIx, i.toNat ≤ x.toNat → t.mem.read (s.I.toNat + i.toNat) = s.reg i) ∧
      Frame { cells := s.indexCells (x.toNat + 1) } s t) ∧
    (4096 ≤ s.I.toNat + x.toNat →
      exec (.storeRegs x) s = .next (faulted s .memoryOutOfRange (max 4096 s.I.toNat)))

/-- Fx65 loads V0 to V[x] from I to I+x, or records MemoryOutOfRange and loads nothing. (R166) -/
def Obligations.BlockLoadCopiesMemoryOrFaults : Prop :=
  ∀ (x : RegIx) (s : State),
    decode (0xF#4 ++ x ++ 0x65#8) = .instr (.loadRegs x) ∧
    (s.I.toNat + x.toNat < 4096 → ∃ t, exec (.loadRegs x) s = .next t ∧
      (∀ i : RegIx, i.toNat ≤ x.toNat → t.reg i = s.mem.read (s.I.toNat + i.toNat)) ∧
      Frame { regs := regsThrough x } s t) ∧
    (4096 ≤ s.I.toNat + x.toNat →
      exec (.loadRegs x) s = .next (faulted s .memoryOutOfRange (max 4096 s.I.toNat)))

/-- A block store followed by a block load at the same I and x gives back V0 to V[x]. (R165, R166, 95_test_vectors.md EX5) -/
def Obligations.BlockStoreThenLoadRestoresRegisters : Prop :=
  ∀ (x : RegIx) (s : State), s.mem.wf → s.I.toNat + x.toNat < 4096 →
    ∃ t, exec (.storeRegs x) s = .next t ∧
      (∀ v : State, v.mem = t.mem → v.I = t.I →
        ∃ u, exec (.loadRegs x) v = .next u ∧ ∀ i : RegIx, i.toNat ≤ x.toNat → u.reg i = s.reg i) ∧
      ∃ u, exec (.loadRegs x) t = .next u ∧ ∀ r : RegIx, u.reg r = s.reg r

/-- Bytes a block store writes are what a later fetch reads. (R64, R165, R275) -/
def Obligations.StoredBytesAreFetchedAsTheNextWord : Prop :=
  ∀ (x : RegIx) (s : State), s.mem.wf → s.I.toNat + x.toNat < 4096 →
    ∃ t, exec (.storeRegs x) s = .next t ∧
      ∀ (a : Word) (i : RegIx), i.toNat < x.toNat → a.toNat = s.I.toNat + i.toNat →
        ∃ w, fetch t.mem a = .ok w ∧ w.toNat = (s.reg i).toNat * 256 + (s.reg (i + 1)).toNat

/-- Fx07 copies DT to V[x]; DT is counted down afterwards. (R181) -/
def Obligations.ReadDelayTimerSeesTheValueBeforeTheCountdown : Prop :=
  ∀ (x : RegIx) (s : State),
    decode (0xF#4 ++ x ++ 0x07#8) = .instr (.ldVxDT x) ∧
    ∃ t, exec (.ldVxDT x) s = .next t ∧ t.reg x = s.DT ∧ Frame { regs := [x] } s t ∧
      (s.fault = none → t.endCycle.DT.toNat = s.DT.toNat - 1 ∧ t.endCycle.reg x = s.DT)

/-- Fx15 and Fx18 set DT and ST to V[x]; the same cycle counts them down. (R182, R183) -/
def Obligations.SetTimersTakeV : Prop :=
  ∀ (x : RegIx) (s : State),
    (decode (0xF#4 ++ x ++ 0x15#8) = .instr (.ldDTVx x) ∧
      ∃ t, exec (.ldDTVx x) s = .next t ∧ t.DT = s.reg x ∧ Frame { delay := true } s t ∧
        (s.fault = none → t.endCycle.DT.toNat = (s.reg x).toNat - 1)) ∧
    (decode (0xF#4 ++ x ++ 0x18#8) = .instr (.ldSTVx x) ∧
      ∃ t, exec (.ldSTVx x) s = .next t ∧ t.ST = s.reg x ∧ Frame { sound := true } s t ∧
        (s.fault = none → t.endCycle.ST.toNat = (s.reg x).toNat - 1))

/-- Two steps that set DT to v and read it back read v - 1. (R276, R180, R104) -/
def Obligations.DelaySetThenReadIsOneLower : Prop :=
  ∀ (s : State) (x y : RegIx) (w₁ w₂ : Word),
    s.fault = none → fetch s.mem s.pc = .ok w₁ → decode w₁ = .instr (.ldDTVx x) →
    fetch s.mem (s.pc + 2) = .ok w₂ → decode w₂ = .instr (.ldVxDT y) →
    ∃ t u, step s = .next t ∧ step t = .next u ∧
      (u.reg y).toNat = (s.reg x).toNat - 1 ∧ u.DT.toNat = (s.reg x).toNat - 2

/-- 00E0 turns every pixel off, leaves VF alone and is idempotent. (R191) -/
def Obligations.ClearScreenTurnsEveryPixelOff : Prop :=
  (∀ a b : Nibble, decode (0x0#4 ++ a ++ b ++ 0x0#4) = .instr .cls) ∧
    ∀ s : State, ∃ t, exec .cls s = .next t ∧ (∀ px py, t.fb.pixel px py = false) ∧
      Frame { screen := true } s t ∧ exec .cls t = .next t

/-- Dxyn toggles exactly the pixels the sprite covers and sets VF to whether one of them was on. (R190, R192, R193) -/
def Obligations.DrawXorsTheSpriteAndReportsCollision : Prop :=
  ∀ (x y : RegIx) (n : Nibble) (s : State),
    decode (0xD#4 ++ x ++ y ++ n) = .instr (.drw x y n) ∧
    ((∀ r, r < n.toNat → s.I.toNat + r < 4096) →
      (s.spriteEdge = .fault → ∀ r c, r < n.toNat → ¬s.Overhangs x y r c) →
      ∃ t, exec (.drw x y n) s = .next t ∧
        (∀ px py, s.Covers x y n px py → t.fb.pixel px py = !s.fb.pixel px py) ∧
        (∀ px py, ¬s.Covers x y n px py → t.fb.pixel px py = s.fb.pixel px py) ∧
        ((∃ px py, s.Covers x y n px py ∧ s.fb.pixel px py = true) → t.reg 0xF = 1) ∧
        ((∀ px py, s.Covers x y n px py → s.fb.pixel px py = false) → t.reg 0xF = 0) ∧
        Frame { regs := [0xF], screen := true } s t)

/-- Dxyn whose row r is the first outside memory records MemoryOutOfRange(I + r) and draws nothing. (R192, R54, R246, R243) -/
def Obligations.DrawPastMemoryEndFaults : Prop :=
  ∀ (x y : RegIx) (n : Nibble) (s : State) (r : Nat),
    r < n.toNat → 4096 ≤ s.I.toNat + r → (∀ q, q < r → s.I.toNat + q < 4096) →
    (s.spriteEdge = .fault → ∀ q c, q < r → ¬s.Overhangs x y q c) →
    exec (.drw x y n) s = .next (faulted s .memoryOutOfRange (s.I.toNat + r))

/-- Under SPRITE_EDGE = fault the first set bit outside the grid records SpriteOutOfBounds and draws nothing. (R193, R192, R246, R243) -/
def Obligations.DrawOutsideTheGridFaultsUnderPolicyFault : Prop :=
  ∀ (x y : RegIx) (n : Nibble) (s : State) (r c : Nat),
    s.spriteEdge = .fault → r < n.toNat → (∀ q, q ≤ r → s.I.toNat + q < 4096) → s.Overhangs x y r c →
    (∀ q d, (q < r ∨ (q = r ∧ d < c)) → ¬s.Overhangs x y q d) →
    exec (.drw x y n) s =
      .next (faulted s .spriteOutOfBounds ((s.originY y + r) * 64 + (s.originX x + c)))

/-- Drawing the same sprite twice at the same place restores the framebuffer and reports the collision. (R192, R190, 95_test_vectors.md EX7) -/
def Obligations.DrawingTwiceRestoresTheScreen : Prop :=
  ∀ (x y : RegIx) (n : Nibble) (s : State),
    x ≠ 0xF → y ≠ 0xF → (∀ r, r < n.toNat → s.I.toNat + r < 4096) →
    (s.spriteEdge = .fault → ∀ r c, r < n.toNat → ¬s.Overhangs x y r c) →
    ∃ t u, exec (.drw x y n) s = .next t ∧ exec (.drw x y n) t = .next u ∧ u.fb = s.fb ∧
      ((∀ px py, s.fb.pixel px py = false) → (∃ px py, s.Covers x y n px py) →
        t.reg 0xF = 0 ∧ u.reg 0xF = 1)

/-- Ex9E and ExA1 skip on the key V[x] names, or record KeyIndexOutOfRange when V[x] is 16 or more. (R211, R212) -/
def Obligations.KeySkipsTestTheNamedKeyOrFault : Prop :=
  ∀ (x : RegIx) (s : State),
    (∀ y : Nibble, decode (0xE#4 ++ x ++ y ++ 0xE#4) = .instr (.skp x) ∧
      decode (0xE#4 ++ x ++ y ++ 0x1#4) = .instr (.sknp x)) ∧
    ((s.reg x).toNat < 16 → ∃ b t u, s.keys[(s.reg x).toNat]? = some b ∧
      exec (.skp x) s = .next t ∧ t.pc = (if b then s.pc + 2 else s.pc) ∧ Frame { pc := true } s t ∧
      exec (.sknp x) s = .next u ∧ u.pc = (if b then s.pc else s.pc + 2) ∧ Frame { pc := true } s u) ∧
    (16 ≤ (s.reg x).toNat →
      exec (.skp x) s = .next (faulted s .keyIndexOutOfRange (s.reg x).toNat) ∧
      exec (.sknp x) s = .next (faulted s .keyIndexOutOfRange (s.reg x).toNat))

/-- Fx0A stores the lowest pressed key in V[x], or moves pc back by 2 when none is pressed. (R213) -/
def Obligations.WaitForKeyTakesTheLowestOrReexecutes : Prop :=
  ∀ (x : RegIx) (s : State),
    decode (0xF#4 ++ x ++ 0x0A#8) = .instr (.ldVxK x) ∧
    (∀ k, s.keys[k]? = some true → (∀ j, j < k → s.keys[j]? = some false) →
      ∃ t, exec (.ldVxK x) s = .next t ∧ (t.reg x).toNat = k ∧ Frame { regs := [x] } s t) ∧
    ((∀ k, k < 16 → s.keys[k]? = some false) →
      ∃ t, exec (.ldVxK x) s = .next t ∧ t.pc = s.pc - 2 ∧ Frame { pc := true } s t) ∧
    ∀ t, exec (.ldVxK x) s = .next t → s.fault = none →
      t.endCycle.DT.toNat = s.DT.toNat - 1 ∧ t.endCycle.ST.toNat = s.ST.toNat - 1

/-- The line the opcode map spells for an instruction stands for it and assembles to its canonical word. (R84, R85, R80) -/
def Obligations.SpelledInstructionAssemblesToItsCanonicalWord : Prop :=
  ∀ i : Instr,
    asmInstr (asmOf i).1 (asmOf i).2 = some i ∧
    assemble [.op (asmOf i).1 (asmOf i).2] = some (bytesOfWord (encode i))
end

