-- ==== Sys2Proof/Laws/Decode.lean ====
section
/-! SUPPORT. The fields of a word written as a concatenation of its nibbles, byte or address (30_encoding.md R71), and the
numbers such concatenations are: what decoding proofs cite instead of the bit extractions. -/

namespace Sys2Proof

theorem toNat_byte (y n : Nibble) : (y ++ n : BitVec 8).toNat = y.toNat * 16 + n.toNat := by
  rw [BitVec.toNat_append, ← Nat.shiftLeft_add_eq_or_of_lt n.isLt, Nat.shiftLeft_eq]

theorem toNat_addr (x y n : Nibble) : (x ++ y ++ n : BitVec 12).toNat = x.toNat * 256 + y.toNat * 16 + n.toNat := by
  rw [BitVec.toNat_append, ← Nat.shiftLeft_add_eq_or_of_lt n.isLt, Nat.shiftLeft_eq, toNat_byte]
  omega

theorem toNat_xyn (a x y n : Nibble) :
    (a ++ x ++ y ++ n : BitVec 16).toNat = a.toNat * 4096 + x.toNat * 256 + y.toNat * 16 + n.toNat := by
  rw [BitVec.toNat_append, ← Nat.shiftLeft_add_eq_or_of_lt n.isLt, Nat.shiftLeft_eq, toNat_addr]
  omega

theorem toNat_xkk (a x : Nibble) (k : Byte) :
    (a ++ x ++ k : BitVec 16).toNat = a.toNat * 4096 + x.toNat * 256 + k.toNat := by
  rw [BitVec.toNat_append, ← Nat.shiftLeft_add_eq_or_of_lt k.isLt, Nat.shiftLeft_eq, toNat_byte]
  omega

theorem toNat_nnn (a : Nibble) (k : Addr) : (a ++ k : BitVec 16).toNat = a.toNat * 4096 + k.toNat := by
  rw [BitVec.toNat_append, ← Nat.shiftLeft_add_eq_or_of_lt k.isLt, Nat.shiftLeft_eq]

/-- A field's number is a quotient's remainder. -/
theorem toNat_field (w : Word) (lo len : Nat) : (w.extractLsb' lo len).toNat = w.toNat / 2 ^ lo % 2 ^ len := by
  rw [BitVec.extractLsb'_toNat, Nat.shiftRight_eq_div_pow]

@[simp] theorem opField_xyn (a x y n : Nibble) : opField (a ++ x ++ y ++ n : BitVec 16) = a := by
  apply BitVec.eq_of_toNat_eq
  rw [opField, toNat_field, toNat_xyn]
  omega

@[simp] theorem xField_xyn (a x y n : Nibble) : xField (a ++ x ++ y ++ n : BitVec 16) = x := by
  apply BitVec.eq_of_toNat_eq
  rw [xField, toNat_field, toNat_xyn]
  omega

@[simp] theorem yField_xyn (a x y n : Nibble) : yField (a ++ x ++ y ++ n : BitVec 16) = y := by
  apply BitVec.eq_of_toNat_eq
  rw [yField, toNat_field, toNat_xyn]
  omega

@[simp] theorem nField_xyn (a x y n : Nibble) : nField (a ++ x ++ y ++ n : BitVec 16) = n := by
  apply BitVec.eq_of_toNat_eq
  rw [nField, toNat_field, toNat_xyn]
  omega

@[simp] theorem kkField_xyn (a x y n : Nibble) : kkField (a ++ x ++ y ++ n : BitVec 16) = y ++ n := by
  apply BitVec.eq_of_toNat_eq
  rw [kkField, toNat_field, toNat_xyn, toNat_byte]
  omega

@[simp] theorem nnnField_xyn (a x y n : Nibble) : nnnField (a ++ x ++ y ++ n : BitVec 16) = x ++ y ++ n := by
  apply BitVec.eq_of_toNat_eq
  rw [nnnField, toNat_field, toNat_xyn, toNat_addr]
  omega

@[simp] theorem opField_xkk (a x : Nibble) (k : Byte) : opField (a ++ x ++ k : BitVec 16) = a := by
  apply BitVec.eq_of_toNat_eq
  rw [opField, toNat_field, toNat_xkk]
  omega

@[simp] theorem xField_xkk (a x : Nibble) (k : Byte) : xField (a ++ x ++ k : BitVec 16) = x := by
  apply BitVec.eq_of_toNat_eq
  rw [xField, toNat_field, toNat_xkk]
  omega

@[simp] theorem kkField_xkk (a x : Nibble) (k : Byte) : kkField (a ++ x ++ k : BitVec 16) = k := by
  apply BitVec.eq_of_toNat_eq
  rw [kkField, toNat_field, toNat_xkk]
  omega

@[simp] theorem nField_xkk (a x : Nibble) (k : Byte) : nField (a ++ x ++ k : BitVec 16) = k.extractLsb' 0 4 := by
  apply BitVec.eq_of_toNat_eq
  rw [nField, toNat_field, toNat_xkk, BitVec.extractLsb'_toNat, Nat.shiftRight_eq_div_pow]
  omega

@[simp] theorem opField_nnn (a : Nibble) (k : Addr) : opField (a ++ k : BitVec 16) = a := by
  apply BitVec.eq_of_toNat_eq
  rw [opField, toNat_field, toNat_nnn]
  omega

@[simp] theorem nnnField_nnn (a : Nibble) (k : Addr) : nnnField (a ++ k : BitVec 16) = k := by
  apply BitVec.eq_of_toNat_eq
  rw [nnnField, toNat_field, toNat_nnn]
  omega

/-- Every word is the concatenation of its four nibbles. -/
theorem word_eq_xyn (w : Word) : w = (opField w ++ xField w ++ yField w ++ nField w : BitVec 16) := by
  apply BitVec.eq_of_toNat_eq
  rw [toNat_xyn, opField, xField, yField, nField, toNat_field, toNat_field, toNat_field, toNat_field]
  omega

/-- A word is its two bytes, high byte first (R56). -/
theorem bytes_append (w : Word) : (hiByte w ++ loByte w : BitVec 16) = w := by
  apply BitVec.eq_of_toNat_eq
  rw [BitVec.toNat_append, ← Nat.shiftLeft_add_eq_or_of_lt (loByte w).isLt, Nat.shiftLeft_eq, hiByte, loByte, toNat_field,
    toNat_field]
  omega

/-- The number of a fetched word (R56). -/
theorem toNat_wordOfBytes (hi lo : Byte) : (hi ++ lo : BitVec 16).toNat = hi.toNat * 256 + lo.toNat := by
  rw [BitVec.toNat_append, ← Nat.shiftLeft_add_eq_or_of_lt lo.isLt, Nat.shiftLeft_eq]

end Sys2Proof
end

