-- ==== Sys2Proof/Laws/Memory.lean ====
section
/-! SUPPORT. Memory: a read after a write, the canonical form and the byte-sequence accesses (20_memory.md R54, R61). -/

namespace Sys2Proof.Machine

/-- A write leaves every other address as it was, whatever the list's form (R59). -/
theorem Memory.read_write_ne (m : Memory) {a b : Nat} (v : Byte) (h : b ≠ a) : (m.write a v).read b = m.read b := by
  induction m with
  | nil =>
    unfold Memory.write
    split <;> simp [Memory.read, h]
  | cons c rest ih =>
    obtain ⟨c1, u⟩ := c
    unfold Memory.write
    by_cases h1 : a < c1
    · simp only [h1, if_true]
      split
      · rfl
      · simp [Memory.read, h]
    · by_cases h2 : a = c1
      · subst h2
        simp only [Nat.lt_irrefl, if_false, if_true]
        split <;> simp [Memory.read, h]
      · simp only [h1, h2, if_false, Memory.read, ih]

/-- An address below every listed one is unlisted. -/
theorem Memory.read_of_below (m : Memory) (a : Nat) (h : ∀ c ∈ m, a < c.1) : m.read a = Memory.unlisted a := by
  induction m with
  | nil => rfl
  | cons c rest ih =>
    obtain ⟨c1, u⟩ := c
    have hc : a < c1 := h _ (List.mem_cons_self ..)
    simp only [Memory.read, Nat.ne_of_lt hc, if_false]
    exact ih fun d hd => h d (List.mem_cons_of_mem _ hd)

theorem Memory.wf_cons {c : Host.Cell} {rest : Memory} :
    Memory.wf (c :: rest) ↔ (∀ d ∈ rest, c.1 < d.1) ∧ c.1 < Config.memSize ∧ c.2 ≠ Memory.unlisted c.1 ∧ Memory.wf rest := by
  unfold Memory.wf
  rw [List.pairwise_cons]
  constructor
  · rintro ⟨⟨h1, h2⟩, h3⟩
    have hc := h3 c (List.mem_cons_self ..)
    exact ⟨h1, hc.1, hc.2, h2, fun d hd => h3 d (List.mem_cons_of_mem _ hd)⟩
  · rintro ⟨h1, h2, h3, h4, h5⟩
    refine ⟨⟨h1, h4⟩, fun d hd => ?_⟩
    rcases List.mem_cons.1 hd with rfl | hd
    · exact ⟨h2, h3⟩
    · exact h5 d hd

/-- A write reads back, in a canonical memory (R61). -/
theorem Memory.read_write_self {m : Memory} (a : Nat) (v : Byte) (h : m.wf) : (m.write a v).read a = v := by
  induction m with
  | nil =>
    unfold Memory.write
    split <;> simp [Memory.read, *]
  | cons c rest ih =>
    obtain ⟨c1, u⟩ := c
    obtain ⟨hlt, hsz, hne, hrest⟩ := Memory.wf_cons.1 h
    unfold Memory.write
    by_cases h1 : a < c1
    · simp only [h1, if_true]
      split
      · rename_i hv
        rw [hv]
        refine Memory.read_of_below _ _ fun d hd => ?_
        rcases List.mem_cons.1 hd with rfl | hd
        · exact h1
        · exact Nat.lt_trans h1 (hlt d hd)
      · simp [Memory.read]
    · by_cases h2 : a = c1
      · subst h2
        simp only [Nat.lt_irrefl, if_false, if_true]
        split
        · rename_i hv
          rw [hv]
          exact Memory.read_of_below _ _ fun d hd => hlt d hd
        · simp [Memory.read]
      · simp only [h1, h2, if_false, Memory.read]
        exact ih hrest

theorem Memory.mem_write {m : Memory} {a : Nat} {v : Byte} {c : Host.Cell} (h : c ∈ m.write a v) :
    (c = (a, v) ∧ v ≠ Memory.unlisted a) ∨ c ∈ m := by
  induction m with
  | nil =>
    unfold Memory.write at h
    split at h
    · simp at h
    · rename_i hv
      left
      exact ⟨by simpa using h, hv⟩
  | cons d rest ih =>
    obtain ⟨d1, u⟩ := d
    unfold Memory.write at h
    by_cases h1 : a < d1
    · simp only [h1, if_true] at h
      split at h
      · exact .inr h
      · rename_i hv
        rcases List.mem_cons.1 h with h | h
        · exact .inl ⟨h, hv⟩
        · exact .inr h
    · by_cases h2 : a = d1
      · subst h2
        simp only [Nat.lt_irrefl, if_false, if_true] at h
        split at h
        · exact .inr (List.mem_cons_of_mem _ h)
        · rename_i hv
          rcases List.mem_cons.1 h with h | h
          · exact .inl ⟨h, hv⟩
          · exact .inr (List.mem_cons_of_mem _ h)
      · simp only [h1, h2, if_false] at h
        rcases List.mem_cons.1 h with h | h
        · exact .inr (h ▸ List.mem_cons_self ..)
        · exact (ih h).imp id (List.mem_cons_of_mem _)

/-- A write inside the address space keeps the canonical form. -/
theorem Memory.write_wf {m : Memory} {a : Nat} (v : Byte) (h : m.wf) (ha : a < Config.memSize) : (m.write a v).wf := by
  induction m with
  | nil =>
    unfold Memory.write
    split
    · exact h
    · rename_i hv
      exact Memory.wf_cons.2 ⟨by simp, ha, hv, h⟩
  | cons c rest ih =>
    obtain ⟨c1, u⟩ := c
    obtain ⟨hlt, hsz, hne, hrest⟩ := Memory.wf_cons.1 h
    have hw := ih hrest
    unfold Memory.write
    by_cases h1 : a < c1
    · simp only [h1, if_true]
      split
      · exact h
      · rename_i hv
        refine Memory.wf_cons.2 ⟨fun d hd => ?_, ha, hv, h⟩
        rcases List.mem_cons.1 hd with rfl | hd
        · exact h1
        · exact Nat.lt_trans h1 (hlt d hd)
    · by_cases h2 : a = c1
      · subst h2
        simp only [Nat.lt_irrefl, if_false, if_true]
        split
        · exact hrest
        · rename_i hv
          exact Memory.wf_cons.2 ⟨hlt, ha, hv, hrest⟩
      · simp only [h1, h2, if_false]
        refine Memory.wf_cons.2 ⟨fun d hd => ?_, hsz, hne, hw⟩
        rcases Memory.mem_write hd with ⟨rfl, -⟩ | hd
        · show c1 < a
          omega
        · exact hlt d hd

theorem Memory.nil_wf : Memory.wf [] := ⟨List.Pairwise.nil, by simp⟩

/-- The unchecked byte sequence keeps the canonical form when it stays inside the address space. -/
theorem Memory.writeAll_wf {m : Memory} {a : Nat} (bytes : List Byte) (h : m.wf)
    (hb : a + bytes.length ≤ Config.memSize) : (m.writeAll a bytes).wf := by
  induction bytes generalizing m a with
  | nil => exact h
  | cons v vs ih =>
    simp only [List.length_cons] at hb
    exact ih (Memory.write_wf v h (by omega)) (by omega)

/-- The unchecked byte sequence leaves the other addresses as they were. -/
theorem Memory.read_writeAll_outside (m : Memory) (a b : Nat) (bytes : List Byte)
    (h : b < a ∨ a + bytes.length ≤ b) : (m.writeAll a bytes).read b = m.read b := by
  induction bytes generalizing m a with
  | nil => rfl
  | cons v vs ih =>
    simp only [List.length_cons] at h
    unfold Memory.writeAll
    rw [ih _ _ (by omega), Memory.read_write_ne _ _ (by omega)]

/-- The unchecked byte sequence reads back. -/
theorem Memory.read_writeAll_inside {m : Memory} {a i : Nat} (bytes : List Byte) (h : m.wf)
    (hb : a + bytes.length ≤ Config.memSize) (hi : i < bytes.length) :
    (m.writeAll a bytes).read (a + i) = bytes[i] := by
  induction bytes generalizing m a i with
  | nil => simp at hi
  | cons v vs ih =>
    simp only [List.length_cons] at hb hi
    unfold Memory.writeAll
    cases i with
    | zero =>
      rw [Memory.read_writeAll_outside _ _ _ _ (by omega)]
      simpa using Memory.read_write_self a v h
    | succ j =>
      have := ih (m := m.write a v) (a := a + 1) (i := j) (Memory.write_wf v h (by omega)) (by omega) (by omega)
      simpa [Nat.add_assoc, Nat.add_comm 1 j] using this

/-- `MemWrite` in range, and out of it (R54). -/
theorem memWrite_eq (m : Memory) (a : Nat) (v : Byte) :
    memWrite m a v = if 4096 ≤ a then .error ⟨.memoryOutOfRange, BitVec.ofNat 17 a⟩ else .ok (m.write a v) := rfl

/-- `MemRead` in range, and out of it (R54). -/
theorem memRead_eq (m : Memory) (a : Nat) :
    memRead m a = if 4096 ≤ a then .error ⟨.memoryOutOfRange, BitVec.ofNat 17 a⟩ else .ok (m.read a) := rfl

/-- Everything a checked byte sequence can do: all of it in range, or the first address out of range raises (R54, R246). -/
theorem memWriteBytes_eq (m : Memory) (a : Nat) (bytes : List Byte) :
    memWriteBytes m a bytes =
      if a + bytes.length ≤ 4096 ∨ bytes = [] then .ok (m.writeAll a bytes)
      else .error ⟨.memoryOutOfRange, BitVec.ofNat 17 (max 4096 a)⟩ := by
  induction bytes generalizing m a with
  | nil => simp [memWriteBytes, Memory.writeAll]
  | cons v vs ih =>
    unfold memWriteBytes
    rw [memWrite_eq]
    by_cases ha : 4096 ≤ a
    · simp only [ha, if_true]
      have : ¬(a + (v :: vs).length ≤ 4096 ∨ v :: vs = []) := by simp; omega
      simp only [this, if_false, Nat.max_eq_right ha]
    · simp only [ha, if_false, ih, Memory.writeAll, List.length_cons]
      by_cases hv : vs = []
      · subst hv
        have : a + (0 + 1) ≤ 4096 := by omega
        simp [this]
      · by_cases hl : a + 1 + vs.length ≤ 4096
        · have : a + (vs.length + 1) ≤ 4096 := by omega
          simp [hl, this]
        · have h2 : ¬ a + (vs.length + 1) ≤ 4096 := by omega
          have hlen : 0 < vs.length := List.length_pos_iff.2 hv
          simp only [hl, h2, hv, or_self, if_false, reduceCtorEq]
          congr 3
          omega

/-- Everything a checked byte-sequence read can do (R54, R246). -/
theorem memReadBytes_eq (m : Memory) (a n : Nat) :
    memReadBytes m a n =
      if a + n ≤ 4096 ∨ n = 0 then .ok ((List.range n).map fun k => m.read (a + k))
      else .error ⟨.memoryOutOfRange, BitVec.ofNat 17 (max 4096 a)⟩ := by
  induction n generalizing a with
  | zero => simp [memReadBytes]
  | succ n ih =>
    unfold memReadBytes memRead
    by_cases ha : Config.memSize ≤ a
    · have ha' : 4096 ≤ a := ha
      have : ¬(a + (n + 1) ≤ 4096 ∨ n + 1 = 0) := by omega
      simp only [ha, if_true, this, if_false, Nat.max_eq_right ha']
    · have ha' : ¬ 4096 ≤ a := ha
      simp only [ha, if_false, ih]
      by_cases hn : n = 0
      · subst hn
        have : a + (0 + 1) ≤ 4096 := by omega
        simp [this]
      · by_cases hl : a + 1 + n ≤ 4096
        · have h1 : a + (n + 1) ≤ 4096 := by omega
          simp only [hl, h1, true_or, if_true, List.range_succ_eq_map, List.map_cons, List.map_map, Nat.add_zero]
          congr 2
          apply List.map_congr_left
          intro k _
          simp [Nat.add_assoc, Nat.add_comm 1 k]
        · have h1 : ¬ a + (n + 1) ≤ 4096 := by omega
          have h2 : n + 1 ≠ 0 := by omega
          simp only [hl, h1, hn, h2, or_self, if_false]
          congr 3
          omega

/-- Outside the font's 80 bytes an unlisted address reads as 0 (R30, R52). -/
theorem Memory.unlisted_outside {a : Nat} (h : ¬(0x050 ≤ a ∧ a < 0x0A0)) : Memory.unlisted a = 0 := by
  unfold Memory.unlisted
  split
  · rename_i hb
    have hb' : 0x050 ≤ a := hb
    have hl : Config.defaultFont.toList.length ≤ a - Config.fontBase := by
      rw [Vector.length_toList]
      show 80 ≤ a - 0x050
      omega
    exact List.getD_eq_default _ _ hl
  · rfl

/-- Memory after Init is canonical, whatever the FONT (R270). -/
theorem Memory.ofFont_wf (font : Font) : (Memory.ofFont font).wf :=
  Memory.writeAll_wf _ Memory.nil_wf (by simp [Config.fontBase, Config.memSize])

/-- A loaded program leaves memory canonical, and so does a load that fails (R65). -/
theorem loadProgram_wf {bytes : List Byte} {s : State} (h : s.mem.wf) : (loadProgram bytes s).1.mem.wf := by
  unfold loadProgram
  split
  · exact h
  · rename_i hn
    have hn' : ¬ 3584 < bytes.length := hn
    refine Memory.writeAll_wf _ h ?_
    simp only [Config.loadAddr, Config.memSize]
    omega

/-- The memory right after reset is canonical. -/
theorem State.reset_mem_wf : State.reset.mem.wf := Memory.nil_wf

end Sys2Proof.Machine
end

