-- ==== Sys2Proof/Laws/State.lean ====
section
/-! SUPPORT. One lemma per field per update of the state record, so that no proof unfolds an update. -/

namespace Sys2Proof.Machine

@[simp] theorem State.setReg_mem (s : State) (x : RegIx) (v : Byte) : (s.setReg x v).mem = s.mem := rfl
@[simp] theorem State.setReg_V (s : State) (x : RegIx) (v : Byte) : (s.setReg x v).V = s.V.set x.toNat v x.isLt := rfl
@[simp] theorem State.setReg_I (s : State) (x : RegIx) (v : Byte) : (s.setReg x v).I = s.I := rfl
@[simp] theorem State.setReg_pc (s : State) (x : RegIx) (v : Byte) : (s.setReg x v).pc = s.pc := rfl
@[simp] theorem State.setReg_stack (s : State) (x : RegIx) (v : Byte) : (s.setReg x v).stack = s.stack := rfl
@[simp] theorem State.setReg_sp (s : State) (x : RegIx) (v : Byte) : (s.setReg x v).sp = s.sp := rfl
@[simp] theorem State.setReg_DT (s : State) (x : RegIx) (v : Byte) : (s.setReg x v).DT = s.DT := rfl
@[simp] theorem State.setReg_ST (s : State) (x : RegIx) (v : Byte) : (s.setReg x v).ST = s.ST := rfl
@[simp] theorem State.setReg_fb (s : State) (x : RegIx) (v : Byte) : (s.setReg x v).fb = s.fb := rfl
@[simp] theorem State.setReg_keys (s : State) (x : RegIx) (v : Byte) : (s.setReg x v).keys = s.keys := rfl
@[simp] theorem State.setReg_fault (s : State) (x : RegIx) (v : Byte) : (s.setReg x v).fault = s.fault := rfl
@[simp] theorem State.setReg_spriteEdge (s : State) (x : RegIx) (v : Byte) : (s.setReg x v).spriteEdge = s.spriteEdge := rfl
@[simp] theorem State.setReg_scratch (s : State) (x : RegIx) (v : Byte) : (s.setReg x v).scratch = s.scratch := rfl
@[simp] theorem State.setReg_draw (s : State) (x : RegIx) (v : Byte) : (s.setReg x v).draw = s.draw := rfl

@[simp] theorem State.setPc_mem (s : State) (v : Word) : (s.setPc v).mem = s.mem := rfl
@[simp] theorem State.setPc_V (s : State) (v : Word) : (s.setPc v).V = s.V := rfl
@[simp] theorem State.setPc_I (s : State) (v : Word) : (s.setPc v).I = s.I := rfl
@[simp] theorem State.setPc_pc (s : State) (v : Word) : (s.setPc v).pc = v := rfl
@[simp] theorem State.setPc_stack (s : State) (v : Word) : (s.setPc v).stack = s.stack := rfl
@[simp] theorem State.setPc_sp (s : State) (v : Word) : (s.setPc v).sp = s.sp := rfl
@[simp] theorem State.setPc_DT (s : State) (v : Word) : (s.setPc v).DT = s.DT := rfl
@[simp] theorem State.setPc_ST (s : State) (v : Word) : (s.setPc v).ST = s.ST := rfl
@[simp] theorem State.setPc_fb (s : State) (v : Word) : (s.setPc v).fb = s.fb := rfl
@[simp] theorem State.setPc_keys (s : State) (v : Word) : (s.setPc v).keys = s.keys := rfl
@[simp] theorem State.setPc_fault (s : State) (v : Word) : (s.setPc v).fault = s.fault := rfl
@[simp] theorem State.setPc_spriteEdge (s : State) (v : Word) : (s.setPc v).spriteEdge = s.spriteEdge := rfl
@[simp] theorem State.setPc_scratch (s : State) (v : Word) : (s.setPc v).scratch = s.scratch := rfl
@[simp] theorem State.setPc_draw (s : State) (v : Word) : (s.setPc v).draw = s.draw := rfl

@[simp] theorem State.setI_mem (s : State) (v : Word) : (s.setI v).mem = s.mem := rfl
@[simp] theorem State.setI_V (s : State) (v : Word) : (s.setI v).V = s.V := rfl
@[simp] theorem State.setI_I (s : State) (v : Word) : (s.setI v).I = v := rfl
@[simp] theorem State.setI_pc (s : State) (v : Word) : (s.setI v).pc = s.pc := rfl
@[simp] theorem State.setI_stack (s : State) (v : Word) : (s.setI v).stack = s.stack := rfl
@[simp] theorem State.setI_sp (s : State) (v : Word) : (s.setI v).sp = s.sp := rfl
@[simp] theorem State.setI_DT (s : State) (v : Word) : (s.setI v).DT = s.DT := rfl
@[simp] theorem State.setI_ST (s : State) (v : Word) : (s.setI v).ST = s.ST := rfl
@[simp] theorem State.setI_fb (s : State) (v : Word) : (s.setI v).fb = s.fb := rfl
@[simp] theorem State.setI_keys (s : State) (v : Word) : (s.setI v).keys = s.keys := rfl
@[simp] theorem State.setI_fault (s : State) (v : Word) : (s.setI v).fault = s.fault := rfl
@[simp] theorem State.setI_spriteEdge (s : State) (v : Word) : (s.setI v).spriteEdge = s.spriteEdge := rfl
@[simp] theorem State.setI_scratch (s : State) (v : Word) : (s.setI v).scratch = s.scratch := rfl
@[simp] theorem State.setI_draw (s : State) (v : Word) : (s.setI v).draw = s.draw := rfl

@[simp] theorem State.setDT_mem (s : State) (v : Byte) : (s.setDT v).mem = s.mem := rfl
@[simp] theorem State.setDT_V (s : State) (v : Byte) : (s.setDT v).V = s.V := rfl
@[simp] theorem State.setDT_I (s : State) (v : Byte) : (s.setDT v).I = s.I := rfl
@[simp] theorem State.setDT_pc (s : State) (v : Byte) : (s.setDT v).pc = s.pc := rfl
@[simp] theorem State.setDT_stack (s : State) (v : Byte) : (s.setDT v).stack = s.stack := rfl
@[simp] theorem State.setDT_sp (s : State) (v : Byte) : (s.setDT v).sp = s.sp := rfl
@[simp] theorem State.setDT_DT (s : State) (v : Byte) : (s.setDT v).DT = v := rfl
@[simp] theorem State.setDT_ST (s : State) (v : Byte) : (s.setDT v).ST = s.ST := rfl
@[simp] theorem State.setDT_fb (s : State) (v : Byte) : (s.setDT v).fb = s.fb := rfl
@[simp] theorem State.setDT_keys (s : State) (v : Byte) : (s.setDT v).keys = s.keys := rfl
@[simp] theorem State.setDT_fault (s : State) (v : Byte) : (s.setDT v).fault = s.fault := rfl
@[simp] theorem State.setDT_spriteEdge (s : State) (v : Byte) : (s.setDT v).spriteEdge = s.spriteEdge := rfl
@[simp] theorem State.setDT_scratch (s : State) (v : Byte) : (s.setDT v).scratch = s.scratch := rfl
@[simp] theorem State.setDT_draw (s : State) (v : Byte) : (s.setDT v).draw = s.draw := rfl

@[simp] theorem State.setST_mem (s : State) (v : Byte) : (s.setST v).mem = s.mem := rfl
@[simp] theorem State.setST_V (s : State) (v : Byte) : (s.setST v).V = s.V := rfl
@[simp] theorem State.setST_I (s : State) (v : Byte) : (s.setST v).I = s.I := rfl
@[simp] theorem State.setST_pc (s : State) (v : Byte) : (s.setST v).pc = s.pc := rfl
@[simp] theorem State.setST_stack (s : State) (v : Byte) : (s.setST v).stack = s.stack := rfl
@[simp] theorem State.setST_sp (s : State) (v : Byte) : (s.setST v).sp = s.sp := rfl
@[simp] theorem State.setST_DT (s : State) (v : Byte) : (s.setST v).DT = s.DT := rfl
@[simp] theorem State.setST_ST (s : State) (v : Byte) : (s.setST v).ST = v := rfl
@[simp] theorem State.setST_fb (s : State) (v : Byte) : (s.setST v).fb = s.fb := rfl
@[simp] theorem State.setST_keys (s : State) (v : Byte) : (s.setST v).keys = s.keys := rfl
@[simp] theorem State.setST_fault (s : State) (v : Byte) : (s.setST v).fault = s.fault := rfl
@[simp] theorem State.setST_spriteEdge (s : State) (v : Byte) : (s.setST v).spriteEdge = s.spriteEdge := rfl
@[simp] theorem State.setST_scratch (s : State) (v : Byte) : (s.setST v).scratch = s.scratch := rfl
@[simp] theorem State.setST_draw (s : State) (v : Byte) : (s.setST v).draw = s.draw := rfl

@[simp] theorem State.setMem_mem (s : State) (m : Memory) : (s.setMem m).mem = m := rfl
@[simp] theorem State.setMem_V (s : State) (m : Memory) : (s.setMem m).V = s.V := rfl
@[simp] theorem State.setMem_I (s : State) (m : Memory) : (s.setMem m).I = s.I := rfl
@[simp] theorem State.setMem_pc (s : State) (m : Memory) : (s.setMem m).pc = s.pc := rfl
@[simp] theorem State.setMem_stack (s : State) (m : Memory) : (s.setMem m).stack = s.stack := rfl
@[simp] theorem State.setMem_sp (s : State) (m : Memory) : (s.setMem m).sp = s.sp := rfl
@[simp] theorem State.setMem_DT (s : State) (m : Memory) : (s.setMem m).DT = s.DT := rfl
@[simp] theorem State.setMem_ST (s : State) (m : Memory) : (s.setMem m).ST = s.ST := rfl
@[simp] theorem State.setMem_fb (s : State) (m : Memory) : (s.setMem m).fb = s.fb := rfl
@[simp] theorem State.setMem_keys (s : State) (m : Memory) : (s.setMem m).keys = s.keys := rfl
@[simp] theorem State.setMem_fault (s : State) (m : Memory) : (s.setMem m).fault = s.fault := rfl
@[simp] theorem State.setMem_spriteEdge (s : State) (m : Memory) : (s.setMem m).spriteEdge = s.spriteEdge := rfl
@[simp] theorem State.setMem_scratch (s : State) (m : Memory) : (s.setMem m).scratch = s.scratch := rfl
@[simp] theorem State.setMem_draw (s : State) (m : Memory) : (s.setMem m).draw = s.draw := rfl

@[simp] theorem State.setFb_mem (s : State) (f : Framebuffer) : (s.setFb f).mem = s.mem := rfl
@[simp] theorem State.setFb_V (s : State) (f : Framebuffer) : (s.setFb f).V = s.V := rfl
@[simp] theorem State.setFb_I (s : State) (f : Framebuffer) : (s.setFb f).I = s.I := rfl
@[simp] theorem State.setFb_pc (s : State) (f : Framebuffer) : (s.setFb f).pc = s.pc := rfl
@[simp] theorem State.setFb_stack (s : State) (f : Framebuffer) : (s.setFb f).stack = s.stack := rfl
@[simp] theorem State.setFb_sp (s : State) (f : Framebuffer) : (s.setFb f).sp = s.sp := rfl
@[simp] theorem State.setFb_DT (s : State) (f : Framebuffer) : (s.setFb f).DT = s.DT := rfl
@[simp] theorem State.setFb_ST (s : State) (f : Framebuffer) : (s.setFb f).ST = s.ST := rfl
@[simp] theorem State.setFb_fb (s : State) (f : Framebuffer) : (s.setFb f).fb = f := rfl
@[simp] theorem State.setFb_keys (s : State) (f : Framebuffer) : (s.setFb f).keys = s.keys := rfl
@[simp] theorem State.setFb_fault (s : State) (f : Framebuffer) : (s.setFb f).fault = s.fault := rfl
@[simp] theorem State.setFb_spriteEdge (s : State) (f : Framebuffer) : (s.setFb f).spriteEdge = s.spriteEdge := rfl
@[simp] theorem State.setFb_scratch (s : State) (f : Framebuffer) : (s.setFb f).scratch = s.scratch := rfl
@[simp] theorem State.setFb_draw (s : State) (f : Framebuffer) : (s.setFb f).draw = s.draw := rfl

@[simp] theorem State.setV_mem (s : State) (V : Registers) : (s.setV V).mem = s.mem := rfl
@[simp] theorem State.setV_V (s : State) (V : Registers) : (s.setV V).V = V := rfl
@[simp] theorem State.setV_I (s : State) (V : Registers) : (s.setV V).I = s.I := rfl
@[simp] theorem State.setV_pc (s : State) (V : Registers) : (s.setV V).pc = s.pc := rfl
@[simp] theorem State.setV_stack (s : State) (V : Registers) : (s.setV V).stack = s.stack := rfl
@[simp] theorem State.setV_sp (s : State) (V : Registers) : (s.setV V).sp = s.sp := rfl
@[simp] theorem State.setV_DT (s : State) (V : Registers) : (s.setV V).DT = s.DT := rfl
@[simp] theorem State.setV_ST (s : State) (V : Registers) : (s.setV V).ST = s.ST := rfl
@[simp] theorem State.setV_fb (s : State) (V : Registers) : (s.setV V).fb = s.fb := rfl
@[simp] theorem State.setV_keys (s : State) (V : Registers) : (s.setV V).keys = s.keys := rfl
@[simp] theorem State.setV_fault (s : State) (V : Registers) : (s.setV V).fault = s.fault := rfl
@[simp] theorem State.setV_spriteEdge (s : State) (V : Registers) : (s.setV V).spriteEdge = s.spriteEdge := rfl
@[simp] theorem State.setV_scratch (s : State) (V : Registers) : (s.setV V).scratch = s.scratch := rfl
@[simp] theorem State.setV_draw (s : State) (V : Registers) : (s.setV V).draw = s.draw := rfl

@[simp] theorem State.takeFault_mem (s : State) (r : Raised) : (s.takeFault r).mem = s.mem := rfl
@[simp] theorem State.takeFault_V (s : State) (r : Raised) : (s.takeFault r).V = s.V := rfl
@[simp] theorem State.takeFault_I (s : State) (r : Raised) : (s.takeFault r).I = s.I := rfl
@[simp] theorem State.takeFault_pc (s : State) (r : Raised) : (s.takeFault r).pc = s.scratch.addr := rfl
@[simp] theorem State.takeFault_stack (s : State) (r : Raised) : (s.takeFault r).stack = s.stack := rfl
@[simp] theorem State.takeFault_sp (s : State) (r : Raised) : (s.takeFault r).sp = s.sp := rfl
@[simp] theorem State.takeFault_DT (s : State) (r : Raised) : (s.takeFault r).DT = s.DT := rfl
@[simp] theorem State.takeFault_ST (s : State) (r : Raised) : (s.takeFault r).ST = s.ST := rfl
@[simp] theorem State.takeFault_fb (s : State) (r : Raised) : (s.takeFault r).fb = s.fb := rfl
@[simp] theorem State.takeFault_keys (s : State) (r : Raised) : (s.takeFault r).keys = s.keys := rfl
@[simp] theorem State.takeFault_fault (s : State) (r : Raised) : (s.takeFault r).fault = some ⟨r.cause, s.scratch.addr, s.scratch.word, r.info⟩ := rfl
@[simp] theorem State.takeFault_spriteEdge (s : State) (r : Raised) : (s.takeFault r).spriteEdge = s.spriteEdge := rfl
@[simp] theorem State.takeFault_scratch (s : State) (r : Raised) : (s.takeFault r).scratch = s.scratch := rfl
@[simp] theorem State.takeFault_draw (s : State) (r : Raised) : (s.takeFault r).draw = s.draw := rfl

@[simp] theorem State.countdownTimers_mem (s : State) : (s.countdownTimers).mem = s.mem := rfl
@[simp] theorem State.countdownTimers_V (s : State) : (s.countdownTimers).V = s.V := rfl
@[simp] theorem State.countdownTimers_I (s : State) : (s.countdownTimers).I = s.I := rfl
@[simp] theorem State.countdownTimers_pc (s : State) : (s.countdownTimers).pc = s.pc := rfl
@[simp] theorem State.countdownTimers_stack (s : State) : (s.countdownTimers).stack = s.stack := rfl
@[simp] theorem State.countdownTimers_sp (s : State) : (s.countdownTimers).sp = s.sp := rfl
@[simp] theorem State.countdownTimers_DT (s : State) : (s.countdownTimers).DT = countdown s.DT := rfl
@[simp] theorem State.countdownTimers_ST (s : State) : (s.countdownTimers).ST = countdown s.ST := rfl
@[simp] theorem State.countdownTimers_fb (s : State) : (s.countdownTimers).fb = s.fb := rfl
@[simp] theorem State.countdownTimers_keys (s : State) : (s.countdownTimers).keys = s.keys := rfl
@[simp] theorem State.countdownTimers_fault (s : State) : (s.countdownTimers).fault = s.fault := rfl
@[simp] theorem State.countdownTimers_spriteEdge (s : State) : (s.countdownTimers).spriteEdge = s.spriteEdge := rfl
@[simp] theorem State.countdownTimers_scratch (s : State) : (s.countdownTimers).scratch = s.scratch := rfl
@[simp] theorem State.countdownTimers_draw (s : State) : (s.countdownTimers).draw = s.draw := rfl

@[simp] theorem State.latch_mem (s : State) (w : Word) (b : Byte) : (s.latch w b).mem = s.mem := rfl
@[simp] theorem State.latch_V (s : State) (w : Word) (b : Byte) : (s.latch w b).V = s.V := rfl
@[simp] theorem State.latch_I (s : State) (w : Word) (b : Byte) : (s.latch w b).I = s.I := rfl
@[simp] theorem State.latch_pc (s : State) (w : Word) (b : Byte) : (s.latch w b).pc = s.pc := rfl
@[simp] theorem State.latch_stack (s : State) (w : Word) (b : Byte) : (s.latch w b).stack = s.stack := rfl
@[simp] theorem State.latch_sp (s : State) (w : Word) (b : Byte) : (s.latch w b).sp = s.sp := rfl
@[simp] theorem State.latch_DT (s : State) (w : Word) (b : Byte) : (s.latch w b).DT = s.DT := rfl
@[simp] theorem State.latch_ST (s : State) (w : Word) (b : Byte) : (s.latch w b).ST = s.ST := rfl
@[simp] theorem State.latch_fb (s : State) (w : Word) (b : Byte) : (s.latch w b).fb = s.fb := rfl
@[simp] theorem State.latch_keys (s : State) (w : Word) (b : Byte) : (s.latch w b).keys = s.keys := rfl
@[simp] theorem State.latch_fault (s : State) (w : Word) (b : Byte) : (s.latch w b).fault = s.fault := rfl
@[simp] theorem State.latch_spriteEdge (s : State) (w : Word) (b : Byte) : (s.latch w b).spriteEdge = s.spriteEdge := rfl
@[simp] theorem State.latch_scratch (s : State) (w : Word) (b : Byte) : (s.latch w b).scratch = ⟨s.pc, w, b⟩ := rfl
@[simp] theorem State.latch_draw (s : State) (w : Word) (b : Byte) : (s.latch w b).draw = s.draw := rfl

/-- Setting the flag is setting V[15] (R24). -/
@[simp] theorem State.setFlag_eq (s : State) (v : Byte) : s.setFlag v = s.setReg flagReg v := rfl

/-- The advance is a write of the pc (R102). -/
@[simp] theorem State.advancePc_eq (s : State) : s.advancePc = s.setPc (s.pc + 2) := rfl

theorem State.reg_ext {s t : State} (h : s.V = t.V) (x : RegIx) : s.reg x = t.reg x := by
  simp only [State.reg, h]

@[simp] theorem State.reg_setReg_self (s : State) (x : RegIx) (v : Byte) : (s.setReg x v).reg x = v := by
  simp [State.reg]

theorem State.reg_setReg_ne (s : State) {x r : RegIx} (v : Byte) (h : r ≠ x) : (s.setReg x v).reg r = s.reg r := by
  have hne : x.toNat ≠ r.toNat := fun e => h (BitVec.eq_of_toNat_eq e.symm)
  simp [State.reg, Vector.getElem_set_ne _ _ hne]

/-- Reading any register after a write (R21). -/
theorem State.reg_setReg (s : State) (x r : RegIx) (v : Byte) :
    (s.setReg x v).reg r = if r = x then v else s.reg r := by
  by_cases h : r = x
  · subst h; simp
  · simp [h, State.reg_setReg_ne s v h]

@[simp] theorem State.reg_setPc (s : State) (v : Word) (x : RegIx) : (s.setPc v).reg x = s.reg x := rfl
@[simp] theorem State.reg_setI (s : State) (v : Word) (x : RegIx) : (s.setI v).reg x = s.reg x := rfl
@[simp] theorem State.reg_setDT (s : State) (v : Byte) (x : RegIx) : (s.setDT v).reg x = s.reg x := rfl
@[simp] theorem State.reg_setST (s : State) (v : Byte) (x : RegIx) : (s.setST v).reg x = s.reg x := rfl
@[simp] theorem State.reg_setMem (s : State) (m : Memory) (x : RegIx) : (s.setMem m).reg x = s.reg x := rfl
@[simp] theorem State.reg_setFb (s : State) (f : Framebuffer) (x : RegIx) : (s.setFb f).reg x = s.reg x := rfl
@[simp] theorem State.reg_takeFault (s : State) (r : Raised) (x : RegIx) : (s.takeFault r).reg x = s.reg x := rfl
@[simp] theorem State.reg_countdownTimers (s : State) (x : RegIx) : (s.countdownTimers).reg x = s.reg x := rfl
@[simp] theorem State.reg_latch (s : State) (w : Word) (b : Byte) (x : RegIx) : (s.latch w b).reg x = s.reg x := rfl

/-- A skip moves the pc by 2 or not at all (R140). -/
theorem State.skipIf_eq (s : State) (c : Bool) : s.skipIf c = s.setPc (if c then s.pc + 2 else s.pc) := by
  cases c <;> rfl

/-- Reading a pixel after a pixel was written (R31). -/
theorem Framebuffer.pixel_setPixel (f : Framebuffer) (px qx : Fin 64) (py qy : Fin 32) (b : Bool) :
    (f.setPixel px py b).pixel qx qy = if qx = px ∧ qy = py then b else f.pixel qx qy := by
  by_cases hy : qy = py
  · subst hy
    by_cases hx : qx = px
    · subst hx; simp [Framebuffer.pixel, Framebuffer.setPixel]
    · have hne : px.val ≠ qx.val := fun e => hx (Fin.ext e.symm)
      simp [Framebuffer.pixel, Framebuffer.setPixel, hx, Vector.getElem_set_ne _ _ hne]
  · have hne : py.val ≠ qy.val := fun e => hy (Fin.ext e.symm)
    simp [Framebuffer.pixel, Framebuffer.setPixel, hy, Vector.getElem_set_ne _ _ hne]

/-- Every pixel of a blank framebuffer is off (R191). -/
@[simp] theorem Framebuffer.pixel_blank (px : Fin 64) (py : Fin 32) : Framebuffer.blank.pixel px py = false := by
  simp [Framebuffer.pixel, Framebuffer.blank]

/-- A cycle's end: the fault register, the pc, the registers, memory and the framebuffer stay. -/
theorem State.endCycle_of_running {s : State} (h : s.fault = none) :
    s.endCycle = { s.countdownTimers with scratch := Scratch.idle, draw := s.draw + 1 } := by
  simp [State.endCycle, h]

theorem State.endCycle_of_faulted {s : State} (h : s.fault ≠ none) :
    s.endCycle = { s with scratch := Scratch.idle } := by
  cases hf : s.fault with
  | none => exact absurd hf h
  | some r => simp [State.endCycle, hf]

@[simp] theorem State.endCycle_mem (s : State) : s.endCycle.mem = s.mem := by
  unfold State.endCycle; split <;> rfl
@[simp] theorem State.endCycle_V (s : State) : s.endCycle.V = s.V := by
  unfold State.endCycle; split <;> rfl
@[simp] theorem State.endCycle_I (s : State) : s.endCycle.I = s.I := by
  unfold State.endCycle; split <;> rfl
@[simp] theorem State.endCycle_pc (s : State) : s.endCycle.pc = s.pc := by
  unfold State.endCycle; split <;> rfl
@[simp] theorem State.endCycle_stack (s : State) : s.endCycle.stack = s.stack := by
  unfold State.endCycle; split <;> rfl
@[simp] theorem State.endCycle_sp (s : State) : s.endCycle.sp = s.sp := by
  unfold State.endCycle; split <;> rfl
@[simp] theorem State.endCycle_fb (s : State) : s.endCycle.fb = s.fb := by
  unfold State.endCycle; split <;> rfl
@[simp] theorem State.endCycle_keys (s : State) : s.endCycle.keys = s.keys := by
  unfold State.endCycle; split <;> rfl
@[simp] theorem State.endCycle_fault (s : State) : s.endCycle.fault = s.fault := by
  unfold State.endCycle; split <;> rfl
@[simp] theorem State.endCycle_spriteEdge (s : State) : s.endCycle.spriteEdge = s.spriteEdge := by
  unfold State.endCycle; split <;> rfl
@[simp] theorem State.endCycle_scratch (s : State) : s.endCycle.scratch = Scratch.idle := by
  unfold State.endCycle; split <;> rfl

@[simp] theorem State.reg_endCycle (s : State) (x : RegIx) : s.endCycle.reg x = s.reg x :=
  State.reg_ext (State.endCycle_V s) x

/-- A countdown takes 1 from a timer that is not 0 (R104). -/
theorem countdown_toNat (t : Byte) : (countdown t).toNat = t.toNat - 1 := by
  unfold countdown
  split <;> rename_i h <;> bv_omega

end Sys2Proof.Machine
end

