-- ==== Sys2Proof/Laws/Ops.lean ====
section
/-! SUPPORT. What each shared operation can do, said once: the fetch, the stack, the key test, taking a fault and the commit,
plotting, and the cycle itself. -/

namespace Sys2Proof.Machine

/-- Everything a fetch can do (R101). -/
theorem fetch_eq (m : Memory) (a : Word) :
    fetch m a =
      if a.toNat + 1 < 4096 then .ok (m.read a.toNat ++ m.read (a.toNat + 1))
      else .error ⟨.fetchOutOfRange, BitVec.ofNat 17 a.toNat⟩ := by
  unfold fetch
  by_cases h : a.toNat + 1 < 4096
  · have h' : ¬ Config.memSize ≤ a.toNat + 1 := Nat.not_le.2 h
    simp only [h, h', if_true, if_false]
    rfl
  · have h' : Config.memSize ≤ a.toNat + 1 := Nat.not_lt.1 h
    simp only [h, h', if_true, if_false]

/-- A push below the stack's depth (R143). -/
theorem State.push_ok {s : State} (v : Word) (h : s.sp.val < 16) :
    s.push v = .ok { s with stack := s.stack.set s.sp.val v h, sp := ⟨s.sp.val + 1, by omega⟩ } := by
  simp [State.push, h]

/-- A push on a full stack (R143). -/
theorem State.push_full {s : State} (v : Word) (h : s.sp.val = 16) : s.push v = .error ⟨.stackOverflow, 16⟩ := by
  simp [State.push, h]

/-- A pop of a stack with an entry (R141). -/
theorem State.popPc_ok {s : State} (h : 0 < s.sp.val) :
    s.popPc = .ok { s with
      sp := ⟨s.sp.val - 1, by omega⟩, pc := s.stack[s.sp.val - 1]'(by omega) } := by
  simp [State.popPc, h]

/-- A pop of the empty stack (R141). -/
theorem State.popPc_empty {s : State} (h : s.sp.val = 0) : s.popPc = .error ⟨.stackUnderflow, 0⟩ := by
  simp [State.popPc, h]

/-- The key test in range, and out of it (R211, R212). -/
theorem State.keyAt_ok {s : State} {k : Byte} (h : k.toNat < 16) : s.keyAt k = .ok (s.keys[k.toNat]'h) := by
  simp [State.keyAt, h]

theorem State.keyAt_out {s : State} {k : Byte} (h : 16 ≤ k.toNat) :
    s.keyAt k = .error ⟨.keyIndexOutOfRange, k.zeroExtend 17⟩ := by
  simp [State.keyAt, Nat.not_lt.2 h]

/-- `commit` always answers a next state: the writes, or the fault taken from the start (R242, R243). -/
theorem commit_next {s t : State} {e : Except Raised State} (h : commit s e = .next t) :
    e = .ok t ∨ ∃ r, e = .error r ∧ t = s.takeFault r := by
  cases e with
  | ok u => exact .inl (by simpa [commit] using h)
  | error r => exact .inr ⟨r, rfl, by simpa [commit] using h.symm⟩

@[simp] theorem commit_ok (s t : State) : commit s (.ok t) = .next t := rfl

@[simp] theorem commit_error (s : State) (r : Raised) : commit s (.error r) = .next (s.takeFault r) := rfl

/-- Everything `Plot` can do (R192, R193). -/
theorem plot_eq (edge : SpriteEdge) (c : Canvas) (px py : Nat) :
    plot edge c px py =
      if px < 64 ∧ py < 32 then .ok (plotInside c (Fin.ofNat 64 px) (Fin.ofNat 32 py))
      else if edge = .clip then .ok c
      else if edge = .wrap then .ok (plotInside c (Fin.ofNat 64 px) (Fin.ofNat 32 py))
      else .error ⟨.spriteOutOfBounds, BitVec.ofNat 17 (py * 64 + px)⟩ := by
  unfold plot
  by_cases h : px < 64 ∧ py < 32
  · have hx : (⟨px, h.1⟩ : Fin 64) = Fin.ofNat 64 px := Fin.ext (Nat.mod_eq_of_lt h.1).symm
    have hy : (⟨py, h.2⟩ : Fin 32) = Fin.ofNat 32 py := Fin.ext (Nat.mod_eq_of_lt h.2).symm
    simp only [h, and_self, dif_pos, if_true, hx, hy]
  · rw [dif_neg h, if_neg h]
    cases edge <;> simp

/-- Everything a cycle can do (R100): nothing on a faulted core, a fetch fault, a miss, or the decoded instruction. -/
theorem cycle_cases (b : Byte) (s : State) :
    (s.fault ≠ none ∧ cycle b s = .next s) ∨
    (s.fault = none ∧ 4095 ≤ s.pc.toNat ∧
      cycle b s = .next { s with
        fault := some ⟨.fetchOutOfRange, s.pc, 0, BitVec.ofNat 17 s.pc.toNat⟩, scratch := Scratch.idle }) ∨
    (s.fault = none ∧ ∃ w m, fetch s.mem s.pc = .ok w ∧ decode w = .miss m ∧
      cycle b s = .next ((s.latch w b).setPc (s.pc + 2)).endCycle) ∨
    (s.fault = none ∧ ∃ w i, fetch s.mem s.pc = .ok w ∧ decode w = .instr i ∧
      cycle b s = finishCycle (exec i ((s.latch w b).setPc (s.pc + 2)))) := by
  unfold cycle
  cases hf : s.fault with
  | some r => exact .inl ⟨by simp, rfl⟩
  | none =>
    right
    simp only [fetch_eq]
    by_cases h : s.pc.toNat + 1 < 4096
    · right
      simp only [h, if_true]
      cases hd : decode (s.mem.read s.pc.toNat ++ s.mem.read (s.pc.toNat + 1)) with
      | miss m => exact .inl ⟨trivial, _, m, rfl, hd, by simp [executeWord, hd, execMiss, finishCycle]⟩
      | instr i => exact .inr ⟨trivial, _, i, rfl, hd, by simp [executeWord, hd]⟩
    · left
      simp only [h, if_false]
      refine ⟨trivial, by omega, ?_⟩
      simp only [finishCycle, Host.Outcome.next.injEq]
      rw [State.endCycle_of_faulted (by simp)]
      rfl

/-- `withFetchWord` places its word where the next fetch reads it (R56, R101). -/
theorem fetch_placeWord {s : State} (w : Word) (h : s.mem.wf) :
    fetch (placeWord s w).mem (placeWord s w).pc = .ok w := by
  have ha : (fetchPlace s).toNat + 1 < 4096 := by
    unfold fetchPlace
    split
    · assumption
    · decide
  have hw1 : (s.mem.write (fetchPlace s).toNat (hiByte w)).wf := Memory.write_wf _ h (Nat.lt_of_succ_lt ha)
  simp only [placeWord, fetch_eq, ha, if_true]
  rw [Memory.read_write_ne _ _ (by omega), Memory.read_write_self _ _ h, Memory.read_write_self _ _ hw1]
  congr 1
  exact bytes_append w

end Sys2Proof.Machine
end

