-- ==== Sys2Proof/Laws/Display.lean ====
section
/-! SUPPORT. Drawing as a fold over the pixels it lands on (45_display.md R190 to R193). -/

namespace Sys2Proof.Machine

/-- The pixel a sprite position lands on under a policy, if any (R193). -/
def landing (edge : SpriteEdge) (px py : Nat) : Option (Fin 64 × Fin 32) :=
  if (px < 64 ∧ py < 32) ∨ edge = .wrap then some (Fin.ofNat 64 px, Fin.ofNat 32 py) else none

/-- Plotting a list of pixels in turn. -/
def plotAll (k : Canvas) (ps : List (Fin 64 × Fin 32)) : Canvas := ps.foldl (fun k p => plotInside k p.1 p.2) k

@[simp] theorem plotAll_nil (k : Canvas) : plotAll k [] = k := rfl

@[simp] theorem plotAll_cons (k : Canvas) (p : Fin 64 × Fin 32) (ps : List (Fin 64 × Fin 32)) :
    plotAll k (p :: ps) = plotAll (plotInside k p.1 p.2) ps := rfl

theorem plotAll_append (k : Canvas) (ps qs : List (Fin 64 × Fin 32)) :
    plotAll k (ps ++ qs) = plotAll (plotAll k ps) qs := List.foldl_append ..

theorem plotInside_pixel (k : Canvas) (p q : Fin 64 × Fin 32) :
    (plotInside k p.1 p.2).fb.pixel q.1 q.2 = if q = p then !k.fb.pixel q.1 q.2 else k.fb.pixel q.1 q.2 := by
  unfold plotInside
  rw [Framebuffer.pixel_setPixel]
  by_cases h : q = p
  · subst h; simp
  · rw [if_neg h, if_neg fun e => h (Prod.ext e.1 e.2)]

/-- Distinct pixels are each toggled once, every other pixel stays (R190). -/
theorem plotAll_pixel (ps : List (Fin 64 × Fin 32)) (hn : ps.Nodup) (k : Canvas) (q : Fin 64 × Fin 32) :
    (plotAll k ps).fb.pixel q.1 q.2 = if q ∈ ps then !k.fb.pixel q.1 q.2 else k.fb.pixel q.1 q.2 := by
  induction ps generalizing k with
  | nil => simp
  | cons p ps ih =>
    obtain ⟨hp, hn⟩ := List.nodup_cons.1 hn
    rw [plotAll_cons, ih hn, plotInside_pixel]
    by_cases h : q = p
    · subst h; simp [hp]
    · simp [h]

/-- VF becomes 1 if one of the distinct pixels was on, and else stays (R192). -/
theorem plotAll_vf (ps : List (Fin 64 × Fin 32)) (hn : ps.Nodup) (k : Canvas) :
    (plotAll k ps).vf = if ps.any (fun p => k.fb.pixel p.1 p.2) then 1 else k.vf := by
  induction ps generalizing k with
  | nil => simp
  | cons p ps ih =>
    obtain ⟨hp, hn⟩ := List.nodup_cons.1 hn
    have hany : (ps.any fun q => (plotInside k p.1 p.2).fb.pixel q.1 q.2) = ps.any fun q => k.fb.pixel q.1 q.2 := by
      apply Bool.eq_iff_iff.2
      simp only [List.any_eq_true]
      constructor <;> rintro ⟨q, hq, h⟩ <;> refine ⟨q, hq, ?_⟩ <;>
        have hne : q ≠ p := fun e => hp (e ▸ hq)
      · rwa [plotInside_pixel, if_neg hne] at h
      · rwa [plotInside_pixel, if_neg hne]
    rw [plotAll_cons, ih hn, hany, List.any_cons]
    cases hk : k.fb.pixel p.1 p.2 <;> simp [plotInside, hk]

/-- The pixels one sprite row lands on, in column order (R190). -/
def rowLandings (edge : SpriteEdge) (row : Byte) (ox py : Nat) (cs : List Nat) : List (Fin 64 × Fin 32) :=
  cs.filterMap fun c => if row.getLsbD (7 - c) then landing edge (ox + c) py else none

/-- A plot that does not raise (R193). -/
theorem plot_ok {edge : SpriteEdge} (k : Canvas) {px py : Nat} (h : edge = .fault → px < 64 ∧ py < 32) :
    plot edge k px py = .ok (plotAll k (landing edge px py).toList) := by
  rw [plot_eq]
  by_cases hi : px < 64 ∧ py < 32
  · simp [landing, hi]
  · cases edge with
    | clip => simp [landing, hi]
    | wrap => simp [landing, hi]
    | fault => exact absurd (h rfl) hi

/-- A row none of whose set bits raises: its pixels are plotted in turn (R192). -/
theorem drawRow_ok {edge : SpriteEdge} {row : Byte} {ox py : Nat} (cs : List Nat) (k : Canvas)
    (h : edge = .fault → ∀ c ∈ cs, row.getLsbD (7 - c) = true → ox + c < 64 ∧ py < 32) :
    drawRow edge row ox py cs k = .ok (plotAll k (rowLandings edge row ox py cs)) := by
  induction cs generalizing k with
  | nil => rfl
  | cons c cs ih =>
    have ih' := fun k => ih k fun he d hd => h he d (List.mem_cons_of_mem _ hd)
    unfold drawRow
    by_cases hb : row.getLsbD (7 - c) = true
    · rw [if_pos hb, plot_ok k fun he => h he c (List.mem_cons_self ..) hb]
      simp only [ih', rowLandings, List.filterMap_cons, hb, if_true]
      cases landing edge (ox + c) py <;> simp
    · rw [if_neg hb, ih']
      simp [rowLandings, hb]

/-- The rows of a sprite that is inside memory and does not raise: all their pixels are plotted in turn (R192). -/
theorem drawRows_ok {edge : SpriteEdge} {m : Memory} {base ox oy : Nat} (rs : List Nat) (k : Canvas)
    (hm : ∀ r ∈ rs, base + r < 4096)
    (h : edge = .fault → ∀ r ∈ rs, ∀ c, c < 8 → (m.read (base + r)).getLsbD (7 - c) = true → ox + c < 64 ∧ oy + r < 32) :
    drawRows edge m base ox oy rs k =
      .ok (plotAll k (rs.flatMap fun r => rowLandings edge (m.read (base + r)) ox (oy + r) (List.range 8))) := by
  induction rs generalizing k with
  | nil => rfl
  | cons r rs ih =>
    have hr : ¬ Config.memSize ≤ base + r := Nat.not_le.2 (hm r (List.mem_cons_self ..))
    unfold drawRows memRead
    rw [if_neg hr]
    simp only
    rw [drawRow_ok _ k fun he c hc hb => h he r (List.mem_cons_self ..) c (List.mem_range.1 hc) hb]
    simp only
    rw [ih _ (fun q hq => hm q (List.mem_cons_of_mem _ hq)) fun he q hq => h he q (List.mem_cons_of_mem _ hq),
      List.flatMap_cons, plotAll_append]

/-- A row whose first set bit outside the grid is at column `c` under policy `fault` (R193, R246). -/
theorem drawRow_overhang {row : Byte} {ox py c : Nat} (cs ds : List Nat) (k : Canvas)
    (h : ∀ d ∈ cs, row.getLsbD (7 - d) = true → ox + d < 64 ∧ py < 32)
    (hb : row.getLsbD (7 - c) = true) (ho : ¬(ox + c < 64 ∧ py < 32)) :
    drawRow .fault row ox py (cs ++ c :: ds) k = .error ⟨.spriteOutOfBounds, BitVec.ofNat 17 (py * 64 + (ox + c))⟩ := by
  induction cs generalizing k with
  | nil => simp [drawRow, hb, plot_eq, ho]
  | cons d cs ih =>
    have ih' := fun k => ih k fun e he => h e (List.mem_cons_of_mem _ he)
    rw [List.cons_append]
    unfold drawRow
    by_cases hd : row.getLsbD (7 - d) = true
    · rw [if_pos hd, plot_ok k fun _ => h d (List.mem_cons_self ..) hd]
      exact ih' _
    · rw [if_neg hd]
      exact ih' k

/-- Rows that draw, then one that raises: the whole draw raises what that row raises (R246). -/
theorem drawRows_append_error {edge : SpriteEdge} {m : Memory} {base ox oy r : Nat} {e : Raised} (rs qs : List Nat)
    (k : Canvas) (hm : ∀ q ∈ rs, base + q < 4096)
    (h : edge = .fault → ∀ q ∈ rs, ∀ c, c < 8 → (m.read (base + q)).getLsbD (7 - c) = true → ox + c < 64 ∧ oy + q < 32)
    (hr : ∀ k', drawRows edge m base ox oy (r :: qs) k' = .error e) :
    drawRows edge m base ox oy (rs ++ r :: qs) k = .error e := by
  induction rs generalizing k with
  | nil => exact hr k
  | cons q rs ih =>
    have hq : ¬ Config.memSize ≤ base + q := Nat.not_le.2 (hm q (List.mem_cons_self ..))
    rw [List.cons_append]
    unfold drawRows memRead
    rw [if_neg hq]
    simp only
    rw [drawRow_ok _ k fun he c hc hb => h he q (List.mem_cons_self ..) c (List.mem_range.1 hc) hb]
    exact ih _ (fun p hp => hm p (List.mem_cons_of_mem _ hp)) fun he p hp => h he p (List.mem_cons_of_mem _ hp)

end Sys2Proof.Machine
end

