-- ==== Sys2Proof/Laws/PerInstr.lean ====
section
/-! SUPPORT. Statements made instruction by instruction: every operand is in the range R84 gives it, whatever the operands
(the types of `Instr`'s fields carry it). -/

namespace Sys2Proof.Laws

theorem wellFormed_reg (x : RegIx) : WellFormed.reg x.toNat = true := decide_eq_true x.isLt

theorem wellFormed_nibble (n : Nibble) : WellFormed.nibble n.toNat = true := decide_eq_true n.isLt

theorem wellFormed_byte (k : Byte) : WellFormed.byte k.toNat = true := decide_eq_true k.isLt

theorem wellFormed_addr (a : Addr) : WellFormed.addr a.toNat = true := decide_eq_true a.isLt

/-- The instruction passes the operand checks of R84. -/
def OperandRanges.Statement (i : Instr) : Prop := i.wellFormed = true

theorem OperandRanges.cls : OperandRanges.Statement (.cls) := rfl

theorem OperandRanges.ret : OperandRanges.Statement (.ret) := rfl

theorem OperandRanges.jp (nnn : Addr) : OperandRanges.Statement (.jp nnn) := wellFormed_addr nnn

theorem OperandRanges.call (nnn : Addr) : OperandRanges.Statement (.call nnn) := wellFormed_addr nnn

theorem OperandRanges.seKk (x : RegIx) (kk : Byte) : OperandRanges.Statement (.seKk x kk) := Bool.and_eq_true_iff.2 ⟨wellFormed_reg x, wellFormed_byte kk⟩

theorem OperandRanges.sneKk (x : RegIx) (kk : Byte) : OperandRanges.Statement (.sneKk x kk) := Bool.and_eq_true_iff.2 ⟨wellFormed_reg x, wellFormed_byte kk⟩

theorem OperandRanges.seVy (x y : RegIx) : OperandRanges.Statement (.seVy x y) := Bool.and_eq_true_iff.2 ⟨wellFormed_reg x, wellFormed_reg y⟩

theorem OperandRanges.ldKk (x : RegIx) (kk : Byte) : OperandRanges.Statement (.ldKk x kk) := Bool.and_eq_true_iff.2 ⟨wellFormed_reg x, wellFormed_byte kk⟩

theorem OperandRanges.addKk (x : RegIx) (kk : Byte) : OperandRanges.Statement (.addKk x kk) := Bool.and_eq_true_iff.2 ⟨wellFormed_reg x, wellFormed_byte kk⟩

theorem OperandRanges.ldVy (x y : RegIx) : OperandRanges.Statement (.ldVy x y) := Bool.and_eq_true_iff.2 ⟨wellFormed_reg x, wellFormed_reg y⟩

theorem OperandRanges.orVy (x y : RegIx) : OperandRanges.Statement (.orVy x y) := Bool.and_eq_true_iff.2 ⟨wellFormed_reg x, wellFormed_reg y⟩

theorem OperandRanges.andVy (x y : RegIx) : OperandRanges.Statement (.andVy x y) := Bool.and_eq_true_iff.2 ⟨wellFormed_reg x, wellFormed_reg y⟩

theorem OperandRanges.xorVy (x y : RegIx) : OperandRanges.Statement (.xorVy x y) := Bool.and_eq_true_iff.2 ⟨wellFormed_reg x, wellFormed_reg y⟩

theorem OperandRanges.addVy (x y : RegIx) : OperandRanges.Statement (.addVy x y) := Bool.and_eq_true_iff.2 ⟨wellFormed_reg x, wellFormed_reg y⟩

theorem OperandRanges.subVy (x y : RegIx) : OperandRanges.Statement (.subVy x y) := Bool.and_eq_true_iff.2 ⟨wellFormed_reg x, wellFormed_reg y⟩

theorem OperandRanges.shr (x : RegIx) : OperandRanges.Statement (.shr x) := wellFormed_reg x

theorem OperandRanges.subnVy (x y : RegIx) : OperandRanges.Statement (.subnVy x y) := Bool.and_eq_true_iff.2 ⟨wellFormed_reg x, wellFormed_reg y⟩

theorem OperandRanges.shl (x : RegIx) : OperandRanges.Statement (.shl x) := wellFormed_reg x

theorem OperandRanges.sneVy (x y : RegIx) : OperandRanges.Statement (.sneVy x y) := Bool.and_eq_true_iff.2 ⟨wellFormed_reg x, wellFormed_reg y⟩

theorem OperandRanges.ldI (nnn : Addr) : OperandRanges.Statement (.ldI nnn) := wellFormed_addr nnn

theorem OperandRanges.jpV0 (nnn : Addr) : OperandRanges.Statement (.jpV0 nnn) := wellFormed_addr nnn

theorem OperandRanges.rnd (x : RegIx) (kk : Byte) : OperandRanges.Statement (.rnd x kk) := Bool.and_eq_true_iff.2 ⟨wellFormed_reg x, wellFormed_byte kk⟩

theorem OperandRanges.drw (x y : RegIx) (n : Nibble) : OperandRanges.Statement (.drw x y n) := Bool.and_eq_true_iff.2 ⟨Bool.and_eq_true_iff.2 ⟨wellFormed_reg x, wellFormed_reg y⟩, wellFormed_nibble n⟩

theorem OperandRanges.skp (x : RegIx) : OperandRanges.Statement (.skp x) := wellFormed_reg x

theorem OperandRanges.sknp (x : RegIx) : OperandRanges.Statement (.sknp x) := wellFormed_reg x

theorem OperandRanges.ldVxDT (x : RegIx) : OperandRanges.Statement (.ldVxDT x) := wellFormed_reg x

theorem OperandRanges.ldVxK (x : RegIx) : OperandRanges.Statement (.ldVxK x) := wellFormed_reg x

theorem OperandRanges.ldDTVx (x : RegIx) : OperandRanges.Statement (.ldDTVx x) := wellFormed_reg x

theorem OperandRanges.ldSTVx (x : RegIx) : OperandRanges.Statement (.ldSTVx x) := wellFormed_reg x

theorem OperandRanges.addI (x : RegIx) : OperandRanges.Statement (.addI x) := wellFormed_reg x

theorem OperandRanges.ldF (x : RegIx) : OperandRanges.Statement (.ldF x) := wellFormed_reg x

theorem OperandRanges.ldB (x : RegIx) : OperandRanges.Statement (.ldB x) := wellFormed_reg x

theorem OperandRanges.storeRegs (x : RegIx) : OperandRanges.Statement (.storeRegs x) := wellFormed_reg x

theorem OperandRanges.loadRegs (x : RegIx) : OperandRanges.Statement (.loadRegs x) := wellFormed_reg x

end Sys2Proof.Laws
end

