-- ==== Sys2Proof/Tests/Slice0.lean ====
section
/-! SUPPORT. The model's own tests: the operand checks, decoding against words written out from the spec's encodings,
one cycle of each instruction against 95_test_vectors.md (the vector's id stands before each), and for every statement
with hypotheses a concrete state that meets them. -/

namespace Sys2Proof.Tests

open Sys2Proof.Machine

/-! Operand checks (R84): each refuses the first number outside its range. -/

theorem test_reg_check : WellFormed.reg 15 = true ∧ WellFormed.reg 16 = false := by decide

theorem test_nibble_check : WellFormed.nibble 15 = true ∧ WellFormed.nibble 16 = false := by decide

theorem test_byte_check : WellFormed.byte 255 = true ∧ WellFormed.byte 256 = false := by decide

theorem test_addr_check : WellFormed.addr 4095 = true ∧ WellFormed.addr 4096 = false := by decide

theorem test_instr_check : (Instr.drw 0xF 0x0 0xF).wellFormed = true ∧ (Instr.jp 0xFFF).wellFormed = true := by decide

/-! Decoding: one word of each instruction, written bit by bit from its row of R80 (op, x, y, n or kk, or nnn). -/

theorem test_decode_display :
    decode 0b0000000011100000 = .instr .cls ∧ decode 0b1101000100100011 = .instr (.drw 0x1 0x2 0x3) := by decide

theorem test_decode_control :
    decode 0b0000000011101110 = .instr .ret ∧ decode 0b0001001000110100 = .instr (.jp 0x234) ∧
    decode 0b0010010000000000 = .instr (.call 0x400) ∧ decode 0b0011101000010010 = .instr (.seKk 0xA 0x12) ∧
    decode 0b0100101000010010 = .instr (.sneKk 0xA 0x12) ∧ decode 0b0101000100100000 = .instr (.seVy 0x1 0x2) ∧
    decode 0b1001000100100000 = .instr (.sneVy 0x1 0x2) ∧ decode 0b1011001100000000 = .instr (.jpV0 0x300) := by decide

theorem test_decode_arithmetic :
    decode 0b0110101001011100 = .instr (.ldKk 0xA 0x5C) ∧ decode 0b0111111111111111 = .instr (.addKk 0xF 0xFF) ∧
    decode 0b1000000100100000 = .instr (.ldVy 0x1 0x2) ∧ decode 0b1000000100100001 = .instr (.orVy 0x1 0x2) ∧
    decode 0b1000000100100010 = .instr (.andVy 0x1 0x2) ∧ decode 0b1000000100100011 = .instr (.xorVy 0x1 0x2) ∧
    decode 0b1000000100100100 = .instr (.addVy 0x1 0x2) ∧ decode 0b1000000100100101 = .instr (.subVy 0x1 0x2) ∧
    decode 0b1000000100100110 = .instr (.shr 0x1) ∧ decode 0b1000000100100111 = .instr (.subnVy 0x1 0x2) ∧
    decode 0b1000000100101110 = .instr (.shl 0x1) ∧ decode 0b1100001100001111 = .instr (.rnd 0x3 0x0F) := by decide

theorem test_decode_memory :
    decode 0b1010000100100011 = .instr (.ldI 0x123) ∧ decode 0b1111000100011110 = .instr (.addI 0x1) ∧
    decode 0b1111000100101001 = .instr (.ldF 0x1) ∧ decode 0b1111000100110011 = .instr (.ldB 0x1) ∧
    decode 0b1111001001010101 = .instr (.storeRegs 0x2) ∧ decode 0b1111111101100101 = .instr (.loadRegs 0xF) := by decide

theorem test_decode_timer :
    decode 0b1111001100000111 = .instr (.ldVxDT 0x3) ∧ decode 0b1111001100010101 = .instr (.ldDTVx 0x3) ∧
    decode 0b1111001100011000 = .instr (.ldSTVx 0x3) := by decide

theorem test_decode_input :
    decode 0b1110010110011110 = .instr (.skp 0x5) ∧ decode 0b1110010110100001 = .instr (.sknp 0x5) ∧
    decode 0b1111000100001010 = .instr (.ldVxK 0x1) := by decide

/-- CY2 to CY5, and an incomplete word. -/
theorem test_decode_miss :
    decode 0x00EF = .miss .family0 ∧ decode 0x800F = .miss .family8 ∧ decode 0xE0A2 = .miss .familyE ∧
    decode 0xF0FF = .miss .familyF ∧ decodeBytes [0x12] = .miss .truncated := by decide

/-- The high byte is first in memory (R56); the row's word goes through the same decoder. -/
theorem test_decode_bytes :
    decodeBytes [0x6A, 0x5C, 0xFF] = .instr (.ldKk 0xA 0x5C) ∧ decodeTableWord 16 0x6A5C = some (.ldKk 0xA 0x5C) ∧
    decodeTableWord 16 0x00EF = none := by decide

/-- Canonical words of R85. -/
theorem test_encode :
    encode .cls = 0x00E0 ∧ encode .ret = 0x00EE ∧ encode (.shr 0x1) = 0x8106 ∧ encode (.shl 0x1) = 0x810E ∧
    encode (.skp 0x5) = 0xE59E ∧ encode (.sknp 0x5) = 0xE5A1 ∧ encode (.drw 0x0 0x1 0x5) = 0xD015 ∧
    encode (.addVy 0xF 0x2) = 0x8F24 := by decide

/-- No two rows of the opcode map select one word: on the bits both rows fix, their patterns differ (R80). -/
theorem test_rows_disjoint :
    opcodeMap.Pairwise (fun r q => r.pattern &&& q.mask ≠ q.pattern &&& r.mask) := by decide

theorem test_row_count : opcodeMap.length = 34 := by decide

/-! One cycle of each instruction. The expectations are those of 95_test_vectors.md. -/

/-- The state after one cycle on the word `w`, placed where the fetch reads it; `none` unless the cycle ends. -/
def after (b : Byte) (w : Word) (s : State) : Option State :=
  match cycle b (placeWord s w) with
  | .next t => some t
  | _ => none

/-- What a view shows after one cycle on the word `w`, with random byte 0. -/
def shows {α : Type} (w : Word) (s : State) (view : State → α) : Option α := (after 0 w s).map view

/-- The reset state with some registers set. -/
def withRegs (rs : List (RegIx × Byte)) : State := rs.foldl (fun s r => s.setReg r.1 r.2) State.reset

/-- A state with bytes of memory set. -/
def withBytes (s : State) (a : Nat) (bytes : List Byte) : State := s.setMem (s.mem.writeAll a bytes)

/-- A state with pixels turned on. -/
def withPixels (s : State) (ps : List (Fin 64 × Fin 32)) : State :=
  s.setFb (ps.foldl (fun f p => f.setPixel p.1 p.2 true) s.fb)

/-- The bytes from `a` on. -/
def bytesAt (s : State) (a n : Nat) : List Byte := (List.range n).map (fun k => s.mem.read (a + k))

/-- The number of pixels on. -/
def pixelsOn (s : State) : Nat := (readFramebuffer s).countP (fun b => b)

/-- The reset state with a stack of the given entries. -/
def withStack (sp : Fin 17) (top : Word) : State :=
  { State.reset with sp := sp, stack := Vector.replicate 16 top }

/-- A full framebuffer. -/
def fullScreen : Framebuffer := Vector.replicate 32 (Vector.replicate 64 true)

/-- CY1 -/
theorem test_miss_is_noop : shows 0x0123 { State.reset with DT := 5 } (fun t => (t.pc, t.DT, t.V, t.fault)) =
    some (0x202, 4, State.reset.V, none) := by decide

/-- CY9 -/
theorem test_fetch_fault : (match cycle 0 { State.reset with pc := 0xFFF, DT := 5 } with
    | .next t => some (t.pc, t.DT, t.fault)
    | _ => none) = some (0xFFF, 5, some ⟨.fetchOutOfRange, 0xFFF, 0, 0xFFF⟩) := by decide

/-- CY11 -/
theorem test_faulted_core_stops :
    (match cycle 0 { State.reset with fault := some ⟨.stackOverflow, 0x200, 0x2200, 16⟩, DT := 5 } with
    | .next t => some (t.pc, t.DT, t.fault)
    | _ => none) = some (0x200, 5, some ⟨.stackOverflow, 0x200, 0x2200, 16⟩) := by decide

set_option maxRecDepth 20000 in
/-- DR11 -/
theorem test_cls : shows 0x00E0 { State.reset with fb := fullScreen } (fun t => (pixelsOn t, t.pc)) = some (0, 0x202) := by
  decide

/-- CF4 -/
theorem test_ret : shows 0x00EE (withStack 1 0x345) (fun t => (t.pc, t.sp, t.stack[0]?)) = some (0x345, 0, some 0x345) := by
  decide

/-- CF5 -/
theorem test_ret_underflow : shows 0x00EE State.reset (fun t => (t.pc, t.fault)) =
    some (0x200, some ⟨.stackUnderflow, 0x200, 0x00EE, 0⟩) := by decide

/-- CF1 -/
theorem test_jp : shows 0x1234 State.reset (fun t => t.pc) = some 0x234 := by decide

/-- CY10: an odd address. -/
theorem test_jp_odd : shows 0x1201 { State.reset with pc := 0x2FF } (fun t => t.pc) = some 0x201 := by decide

/-- CF2 -/
theorem test_call : shows 0x2400 { State.reset with pc := 0x300 } (fun t => (t.pc, t.sp, t.stack[0]?)) =
    some (0x400, 1, some 0x302) := by decide

/-- CF3 -/
theorem test_call_overflow : shows 0x2400 (withStack 16 0x202) (fun t => (t.pc, t.sp, t.fault)) =
    some (0x200, 16, some ⟨.stackOverflow, 0x200, 0x2400, 16⟩) := by decide

/-- CF6 -/
theorem test_seKk : shows 0x3A12 (withRegs [(0xA, 0x12)]) (fun t => t.pc) = some 0x204 := by decide

/-- EX8' -/
theorem test_seKk_not : shows 0x3A12 State.reset (fun t => t.pc) = some 0x202 := by decide

/-- CF7 -/
theorem test_sneKk : shows 0x4A12 State.reset (fun t => t.pc) = some 0x204 := by decide

/-- CF8 -/
theorem test_sneKk_not : shows 0x4A12 (withRegs [(0xA, 0x12)]) (fun t => t.pc) = some 0x202 := by decide

/-- CF9 -/
theorem test_seVy : shows 0x5123 State.reset (fun t => t.pc) = some 0x204 := by decide

/-- CF10 -/
theorem test_sneVy : shows 0x9120 (withRegs [(0x1, 0x01)]) (fun t => t.pc) = some 0x204 := by decide

/-- CF11 -/
theorem test_sneVy_not : shows 0x9125 State.reset (fun t => t.pc) = some 0x202 := by decide

/-- CF12 -/
theorem test_jpV0 : shows 0xB300 (withRegs [(0x0, 0x11)]) (fun t => t.pc) = some 0x311 := by decide

/-- CF13 -/
theorem test_jpV0_beyond : shows 0xBFFF (withRegs [(0x0, 0xFF)]) (fun t => (t.pc, t.fault)) = some (0x10FE, none) := by
  decide

/-- AR1 -/
theorem test_ldKk : shows 0x6A5C State.reset (fun t => (t.reg 0xA, t.pc)) = some (0x5C, 0x202) := by decide

/-- AR2 -/
theorem test_addKk_flag_register : shows 0x7FFF (withRegs [(0xF, 0x02)]) (fun t => t.reg 0xF) = some 0x01 := by decide

/-- AR3 -/
theorem test_addKk_wraps : shows 0x7102 (withRegs [(0x1, 0xFF), (0xF, 0x55)]) (fun t => (t.reg 0x1, t.reg 0xF)) =
    some (0x01, 0x55) := by decide

/-- AR4 -/
theorem test_ldVy : shows 0x8120 (withRegs [(0x1, 0x12), (0x2, 0x34)]) (fun t => (t.reg 0x1, t.reg 0x2)) =
    some (0x34, 0x34) := by decide

/-- AR5 -/
theorem test_orVy : shows 0x8121 (withRegs [(0x1, 0xF0), (0x2, 0x0F), (0xF, 0x07)])
    (fun t => (t.reg 0x1, t.reg 0xF)) = some (0xFF, 0x07) := by decide

/-- AR6 -/
theorem test_andVy : shows 0x8122 (withRegs [(0x1, 0xF0), (0x2, 0x3C)]) (fun t => t.reg 0x1) = some 0x30 := by decide

/-- AR7 -/
theorem test_xorVy : shows 0x8123 (withRegs [(0x1, 0xF0), (0x2, 0x3C)]) (fun t => t.reg 0x1) = some 0xCC := by decide

/-- AR8 -/
theorem test_xorVy_flag_register : shows 0x8F13 (withRegs [(0xF, 0x01), (0x1, 0x01)]) (fun t => t.reg 0xF) =
    some 0x00 := by decide

/-- AR10 -/
theorem test_addVy : shows 0x8124 (withRegs [(0x1, 0x80), (0x2, 0x80)]) (fun t => (t.reg 0x1, t.reg 0xF)) =
    some (0x00, 1) := by decide

/-- AR12 -/
theorem test_addVy_flag_source : shows 0x81F4 (withRegs [(0x1, 0x10), (0xF, 0xF0)]) (fun t => (t.reg 0x1, t.reg 0xF)) =
    some (0x00, 1) := by decide

/-- AR16 -/
theorem test_subVy_flag_dest : shows 0x8F25 (withRegs [(0xF, 0x05), (0x2, 0x03)]) (fun t => t.reg 0xF) =
    some 0xFE := by decide

/-- AR17 -/
theorem test_subVy_flag_source : shows 0x81F5 (withRegs [(0x1, 0x05), (0xF, 0x03)]) (fun t => (t.reg 0x1, t.reg 0xF)) =
    some (0x04, 1) := by decide

/-- AR20 -/
theorem test_shr : shows 0x8126 (withRegs [(0x1, 0x81), (0x2, 0x40)]) (fun t => (t.reg 0x1, t.reg 0x2, t.reg 0xF)) =
    some (0x40, 0x40, 1) := by decide

/-- AR21 -/
theorem test_shr_flag_dest : shows 0x8F06 (withRegs [(0xF, 0x03)]) (fun t => t.reg 0xF) = some 0x00 := by decide

/-- AR23 -/
theorem test_subnVy : shows 0x8127 (withRegs [(0x1, 0x05), (0x2, 0x03)]) (fun t => (t.reg 0x1, t.reg 0xF)) =
    some (0xFE, 0) := by decide

/-- AR24 -/
theorem test_subnVy_flag_dest : shows 0x8F27 (withRegs [(0xF, 0x03), (0x2, 0x05)]) (fun t => t.reg 0xF) =
    some 0x04 := by decide

/-- AR26 -/
theorem test_shl : shows 0x810E (withRegs [(0x1, 0x81)]) (fun t => (t.reg 0x1, t.reg 0xF)) = some (0x02, 1) := by decide

/-- AR27 -/
theorem test_shl_flag_dest : shows 0x8F0E (withRegs [(0xF, 0x81)]) (fun t => t.reg 0xF) = some 0x02 := by decide

/-- AR29 -/
theorem test_rnd : (after 0xAB 0xC30F State.reset).map (fun t => t.reg 0x3) = some 0x0B := by decide

/-- AR30 -/
theorem test_rnd_masked : (after 0xAB 0xC300 State.reset).map (fun t => t.reg 0x3) = some 0x00 := by decide

/-- MO1 -/
theorem test_ldI : shows 0xA123 State.reset (fun t => t.I) = some 0x123 := by decide

/-- MO2 -/
theorem test_addI_wraps : shows 0xF11E { withRegs [(0x1, 0x02)] with I := 0xFFFF } (fun t => (t.I, t.reg 0xF)) =
    some (0x0001, 0) := by decide

/-- MO3 -/
theorem test_addI_no_flag : shows 0xFF1E { withRegs [(0xF, 0x20)] with I := 0x0FF0 } (fun t => (t.I, t.reg 0xF)) =
    some (0x1010, 0x20) := by decide

/-- MO4 -/
theorem test_ldF : shows 0xF129 (withRegs [(0x1, 0x0F)]) (fun t => t.I) = some 0x09B := by decide

/-- MO6 -/
theorem test_ldF_unmasked : shows 0xF129 (withRegs [(0x1, 0xFF)]) (fun t => t.I) = some 0x54B := by decide

/-- MO7 -/
theorem test_ldB : shows 0xF133 { withRegs [(0x1, 0x9C)] with I := 0x300 } (fun t => (bytesAt t 0x300 3, t.I)) =
    some ([0x01, 0x05, 0x06], 0x300) := by decide

/-- MO8 -/
theorem test_ldB_fault : shows 0xF133 { withRegs [(0x1, 0x9C)] with I := 0xFFE } (fun t => (bytesAt t 0xFFE 2, t.fault)) =
    some ([0x00, 0x00], some ⟨.memoryOutOfRange, 0x200, 0xF133, 0x1000⟩) := by decide

/-- MO9 -/
theorem test_storeRegs : shows 0xF255 { withRegs [(0x0, 1), (0x1, 2), (0x2, 3), (0x3, 4)] with I := 0xFFD }
    (fun t => (bytesAt t 0xFFD 3, t.I)) = some ([0x01, 0x02, 0x03], 0xFFD) := by decide

/-- MO10 -/
theorem test_storeRegs_fault : shows 0xF355 { withRegs [(0x0, 1), (0x1, 2), (0x2, 3), (0x3, 4)] with I := 0xFFD }
    (fun t => (bytesAt t 0xFFD 3, t.fault)) =
    some ([0x00, 0x00, 0x00], some ⟨.memoryOutOfRange, 0x200, 0xF355, 0x1000⟩) := by decide

/-- MO11 -/
theorem test_loadRegs : shows 0xFF65 { State.reset with I := 0x050 } (fun t => (t.V.toList, t.I)) =
    some ([0xF0, 0x90, 0x90, 0x90, 0xF0, 0x20, 0x60, 0x20, 0x20, 0x70, 0xF0, 0x10, 0xF0, 0x80, 0xF0, 0xF0], 0x050) := by
  decide

/-- MO12 -/
theorem test_loadRegs_fault : shows 0xF065 { State.reset with I := 0x1000 } (fun t => (t.pc, t.fault)) =
    some (0x200, some ⟨.memoryOutOfRange, 0x200, 0xF065, 0x1000⟩) := by decide

/-- TM1 -/
theorem test_ldVxDT : shows 0xF307 { State.reset with DT := 9 } (fun t => (t.reg 0x3, t.DT)) = some (0x09, 8) := by decide

/-- TM2 -/
theorem test_ldDTVx : shows 0xF315 (withRegs [(0x3, 0x09)]) (fun t => t.DT) = some 8 := by decide

/-- TM4 -/
theorem test_ldSTVx : shows 0xF318 (withRegs [(0x3, 0x01)]) (fun t => t.ST) = some 0 := by decide

/-- The start of DR1 to DR5: a sprite of three full rows at (60, 30). -/
def cornerSprite (edge : SpriteEdge) : State :=
  withBytes { withRegs [(0x1, 60), (0x2, 30)] with I := 0x300, spriteEdge := edge } 0x300 [0xFF, 0xFF, 0xFF]

set_option maxRecDepth 20000 in
/-- DR4 -/
theorem test_drw_wrap_collision : shows 0xD123 (withPixels (cornerSprite .wrap) [(0, 0)])
    (fun t => (t.fb.pixel 0 0, pixelsOn t, t.reg 0xF)) = some (false, 23, 1) := by decide

set_option maxRecDepth 20000 in
/-- DR8 -/
theorem test_drw_origin_before_flag : shows 0xDF15 { withRegs [(0xF, 5)] with I := 0x050 }
    (fun t => ((List.range 10).map (fun c => (readFramebuffer t)[64 + c]?), pixelsOn t, t.reg 0xF)) =
    some ([some false, some false, some false, some false, some false, some true, some false, some false, some true,
      some false], 14, 0) := by decide

/-- KY1 -/
theorem test_skp : shows 0xE59E (setKey 3 true (withRegs [(0x5, 3)])) (fun t => t.pc) = some 0x204 := by decide

/-- KY4 -/
theorem test_skp_fault : shows 0xE59E (withRegs [(0x5, 0x10)]) (fun t => (t.pc, t.fault)) =
    some (0x200, some ⟨.keyIndexOutOfRange, 0x200, 0xE59E, 0x10⟩) := by decide

/-- KY3 -/
theorem test_sknp : shows 0xE5A1 (withRegs [(0x5, 3)]) (fun t => t.pc) = some 0x204 := by decide

/-- KY5 -/
theorem test_sknp_fault : shows 0xE5A1 (withRegs [(0x5, 0x10)]) (fun t => (t.pc, t.fault)) =
    some (0x200, some ⟨.keyIndexOutOfRange, 0x200, 0xE5A1, 0x10⟩) := by decide

/-- KY6 -/
theorem test_ldVxK : shows 0xF10A (setKey 7 true (setKey 3 true State.reset)) (fun t => (t.reg 0x1, t.pc)) =
    some (0x03, 0x202) := by decide

/-- KY7 -/
theorem test_ldVxK_waits : shows 0xF10A { withRegs [(0x1, 0x44)] with DT := 2 } (fun t => (t.pc, t.DT, t.reg 0x1)) =
    some (0x200, 1, 0x44) := by decide

/-- HO3 -/
theorem test_init_font : bytesAt (init Config.defaultFont .clip (withRegs [(0x1, 7)])) 0x050 5 =
    [0xF0, 0x90, 0x90, 0x90, 0xF0] := by decide

/-- EX1's program, as the load leaves it. -/
theorem test_load_program : bytesAt (loadProgram [0x60, 0x05, 0xA2, 0x50] State.reset).1 0x1FF 6 =
    [0x00, 0x60, 0x05, 0xA2, 0x50, 0x00] := by decide

/-- The first step after reset runs the word placed for it (log entry 11). -/
theorem test_withFetchWord : (match step (State.reset.withFetchWord 16 0x6A5C) with
    | .next t => some (t.reg 0xA, t.pc)
    | _ => none) = some (0x5C, 0x202) := by decide

/-- R84's spelling of D015 (EX3), and of row 33, is read as its row. -/
theorem test_read_line :
    readLine ['D', 'R', 'W', ' ', 'V', '0', ',', ' ', 'V', '1', ',', ' ', '5'] =
      some (.op .drw [.reg 0x0, .reg 0x1, .num 5]) ∧
    readLine ['L', 'D', ' ', '[', 'I', ']', ',', ' ', 'V', 'F'] = some (.op .ld [.atIndex, .reg 0xF]) ∧
    readLine ['D', 'W', ' ', '0', 'x', '1', '2', '0', '8'] = some (.dw 0x1208) := by decide

/-- EX1's program, with a DB byte, a DW word and a label's jump to itself (P1's idle loop, at 0x207 here). -/
theorem test_assemble :
    assemble [.op .ld [.reg 0x0, .num 5], .op .ld [.index, .num 0x250], .db 0xAB, .dw 0x1234, .label ['E'],
      .op .jp [.label ['E']]] = some [0x60, 0x05, 0xA2, 0x50, 0xAB, 0x12, 0x34, 0x12, 0x07] := by decide

/-- R84's ranges: the first number outside each is refused, and so is a jump with an offset register other than V0. -/
theorem test_assemble_refuses :
    asmInstr .jp [.num 0x1000] = none ∧ asmInstr .ld [.reg 0x0, .num 0x100] = none ∧
    asmInstr .drw [.reg 0x0, .reg 0x1, .num 0x10] = none ∧ asmInstr .jp [.reg 0x1, .num 0x300] = none ∧
    assemble [.dw 0x10000] = none ∧ assemble [.db 0x100] = none := by decide

/-! Witnesses: for every statement with hypotheses, concrete states and operands that meet them, one clause at a time. -/

/-- DecodedInstructionIsTheRowTheOpcodeMapSelects: a word that is an instruction, one that is a miss. -/
theorem witness_decoded_row : decode 0x8F24 = .instr (.addVy 0xF 0x2) ∧ decode 0xF0FF = .miss .familyF := by decide

/-- DecodeMissesAreExactlyTheUnmappedKeys: each clause at the ends of its keys. -/
theorem witness_miss_keys :
    decode 0x0001 = .miss .family0 ∧ decode 0x0FFD = .miss .family0 ∧ decode 0x8008 = .miss .family8 ∧
    decode 0x8FFD = .miss .family8 ∧ decode 0x8FFF = .miss .family8 ∧ decode 0xE000 = .miss .familyE ∧
    decode 0xEFFF = .miss .familyE ∧ decode 0xF000 = .miss .familyF ∧ decode 0xFF66 = .miss .familyF := by decide

/-- The reset state with a word where the next fetch reads it. -/
def ready (w : Word) : State := placeWord State.reset w

/-- StepRunsTheDecodedInstruction, at the last fetchable address (CY8). -/
theorem witness_step_runs :
    let s := placeWord { State.reset with pc := 0xFFE } 0x1FFE
    s.fault = none ∧ s.pc.toNat + 1 < 4096 ∧
      decode (s.mem.read s.pc.toNat ++ s.mem.read (s.pc.toNat + 1)) = .instr (.jp 0xFFE) := by decide

/-- FetchIsBigEndianAndRangeChecked: its two clauses where they meet. -/
theorem witness_fetch_range :
    4096 ≤ (0xFFF : Word).toNat + 1 ∧ (0xFFE : Word).toNat + 1 < 4096 ∧ 4096 ≤ (0xFFFF : Word).toNat + 1 := by decide

/-- FetchOutsideMemoryStopsTheCore, at the first pc that cannot be fetched and at the last. -/
theorem witness_fetch_fault :
    ({ State.reset with pc := 0xFFF } : State).fault = none ∧ 0xFFF ≤ ({ State.reset with pc := 0xFFF } : State).pc.toNat ∧
    0xFFF ≤ ({ State.reset with pc := 0xFFFF } : State).pc.toNat := by decide

/-- DecodeMissIsANoOpOfOneCycle. -/
theorem witness_miss : (ready 0x800F).fault = none ∧ fetch (ready 0x800F).mem (ready 0x800F).pc = .ok 0x800F ∧
    decode 0x800F = .miss .family8 := ⟨rfl, rfl, by decide⟩

/-- A core stopped by a call on a full stack. -/
def stopped : State :=
  { placeWord (withStack 16 0x202) 0x2400 with fault := some ⟨.stackOverflow, 0x200, 0x2400, 16⟩ }

/-- FaultedCoreStaysStopped. -/
theorem witness_stopped : stopped.fault ≠ none := by decide

/-- A step from a running state that records the given fault. -/
def StepFaults (s : State) (r : FaultRecord) : Prop := s.fault = none ∧ ∃ t, step s = .next t ∧ t.fault = some r

/-- FaultingCycleCommitsNothing and EveryFaultHasItsCauseConditionAndInfo: a faulting step of each cause. -/
theorem witness_fault_fetch : StepFaults { State.reset with pc := 0xFFF } ⟨.fetchOutOfRange, 0xFFF, 0, 0xFFF⟩ :=
  ⟨rfl, _, rfl, by decide⟩

/-- MO12: a block load from the first address outside memory. -/
theorem witness_fault_memory :
    StepFaults (placeWord { State.reset with I := 0x1000 } 0xF065) ⟨.memoryOutOfRange, 0x200, 0xF065, 0x1000⟩ :=
  ⟨rfl, _, rfl, by decide⟩

/-- MO8: a BCD whose third byte is outside memory. -/
theorem witness_fault_bcd :
    StepFaults (placeWord { State.reset with I := 0xFFE } 0xF133) ⟨.memoryOutOfRange, 0x200, 0xF133, 0x1000⟩ :=
  ⟨rfl, _, rfl, by decide⟩

/-- MO10: a block store whose fourth byte is outside memory. -/
theorem witness_fault_store :
    StepFaults (placeWord { State.reset with I := 0xFFD } 0xF355) ⟨.memoryOutOfRange, 0x200, 0xF355, 0x1000⟩ :=
  ⟨rfl, _, rfl, by decide⟩

/-- DR9: a draw whose third row is outside memory. -/
theorem witness_fault_draw :
    StepFaults (placeWord { State.reset with I := 0xFFE } 0xD013) ⟨.memoryOutOfRange, 0x200, 0xD013, 0x1000⟩ :=
  ⟨rfl, _, rfl, by decide⟩

/-- CF3 -/
theorem witness_fault_call :
    StepFaults (placeWord (withStack 16 0x202) 0x2400) ⟨.stackOverflow, 0x200, 0x2400, 16⟩ := ⟨rfl, _, rfl, by decide⟩

/-- CF5 -/
theorem witness_fault_ret : StepFaults (ready 0x00EE) ⟨.stackUnderflow, 0x200, 0x00EE, 0⟩ := ⟨rfl, _, rfl, by decide⟩

/-- KY4 -/
theorem witness_fault_key : StepFaults (placeWord (withRegs [(0x5, 0x10)]) 0xE59E) ⟨.keyIndexOutOfRange, 0x200, 0xE59E, 0x10⟩ :=
  ⟨rfl, _, rfl, by decide⟩

set_option maxRecDepth 20000 in
/-- DR3: the pixel (64, 30). -/
theorem witness_fault_sprite :
    StepFaults (placeWord (cornerSprite .fault) 0xD123) ⟨.spriteOutOfBounds, 0x200, 0xD123, 0x7C0⟩ :=
  ⟨rfl, _, rfl, by decide⟩

/-- A step from a running state that ends its cycle running. -/
def StepCompletes (s : State) (w : Word) : Prop :=
  s.fault = none ∧ fetch s.mem s.pc = .ok w ∧ ∃ t, step s = .next t ∧ t.fault = none

/-- CompletedCycleCountsBothTimersDown: a word that writes neither timer (TM5), and the two that write one (TM2, TM4). -/
theorem witness_completes_plain : StepCompletes { ready 0x6000 with ST := 3 } 0x6000 ∧
    decode 0x6000 = .instr (.ldKk 0x0 0x00) := ⟨⟨rfl, rfl, _, rfl, rfl⟩, by decide⟩

theorem witness_completes_delay : StepCompletes (ready 0xF315) 0xF315 ∧ decode 0xF315 = .instr (.ldDTVx 0x3) :=
  ⟨⟨rfl, rfl, _, rfl, rfl⟩, by decide⟩

theorem witness_completes_sound : StepCompletes (ready 0xF318) 0xF318 ∧ decode 0xF318 = .instr (.ldSTVx 0x3) :=
  ⟨⟨rfl, rfl, _, rfl, rfl⟩, by decide⟩

/-- StepKeepsMemoryCanonicalAndFaultsExplained: a running state with a listed cell. -/
theorem witness_inv_running : (ready 0x6A5C).Inv ∧ ∃ t, step (ready 0x6A5C) = .next t :=
  ⟨⟨by decide, rfl, fun _ h => nomatch h⟩, _, rfl⟩

/-- StepKeepsMemoryCanonicalAndFaultsExplained: a stopped state. -/
theorem witness_inv_stopped : stopped.Inv ∧ ∃ t, step stopped = .next t := by
  refine ⟨⟨by decide, rfl, fun r h => ?_⟩, _, rfl⟩
  have hr : r = ⟨.stackOverflow, 0x200, 0x2400, 16⟩ := (Option.some.inj h).symm
  subst hr
  exact ⟨rfl, rfl, rfl, rfl, 0x400, by decide⟩

/-- An instruction that ends its execute step running. -/
def Completes (i : Instr) (s : State) : Prop := s.fault = none ∧ ∃ t, exec i s = .next t ∧ t.fault = none

/-- EveryInstructionKeepsItsFrame: the display and memory instructions. -/
theorem witness_frame_memory :
    Completes .cls State.reset ∧ Completes (.drw 0x0 0x0 0x1) State.reset ∧ Completes (.ldI 0x000) State.reset ∧
    Completes (.addI 0x0) State.reset ∧ Completes (.ldF 0x0) State.reset ∧ Completes (.ldB 0x0) State.reset ∧
    Completes (.storeRegs 0xF) State.reset ∧ Completes (.loadRegs 0xF) State.reset :=
  ⟨⟨rfl, _, rfl, rfl⟩, ⟨rfl, _, rfl, rfl⟩, ⟨rfl, _, rfl, rfl⟩, ⟨rfl, _, rfl, rfl⟩, ⟨rfl, _, rfl, rfl⟩, ⟨rfl, _, rfl, rfl⟩,
    ⟨rfl, _, rfl, rfl⟩, ⟨rfl, _, rfl, rfl⟩⟩

/-- EveryInstructionKeepsItsFrame: the arithmetic instructions. -/
theorem witness_frame_arithmetic :
    Completes (.ldKk 0x0 0x00) State.reset ∧ Completes (.addKk 0x0 0x00) State.reset ∧
    Completes (.ldVy 0x0 0x1) State.reset ∧ Completes (.orVy 0x0 0x1) State.reset ∧
    Completes (.andVy 0x0 0x1) State.reset ∧ Completes (.xorVy 0x0 0x1) State.reset ∧
    Completes (.addVy 0x0 0x1) State.reset ∧ Completes (.subVy 0x0 0x1) State.reset ∧ Completes (.shr 0x0) State.reset ∧
    Completes (.subnVy 0x0 0x1) State.reset ∧ Completes (.shl 0x0) State.reset ∧ Completes (.rnd 0x0 0xFF) State.reset :=
  ⟨⟨rfl, _, rfl, rfl⟩, ⟨rfl, _, rfl, rfl⟩, ⟨rfl, _, rfl, rfl⟩, ⟨rfl, _, rfl, rfl⟩, ⟨rfl, _, rfl, rfl⟩, ⟨rfl, _, rfl, rfl⟩,
    ⟨rfl, _, rfl, rfl⟩, ⟨rfl, _, rfl, rfl⟩, ⟨rfl, _, rfl, rfl⟩, ⟨rfl, _, rfl, rfl⟩, ⟨rfl, _, rfl, rfl⟩, ⟨rfl, _, rfl, rfl⟩⟩

/-- EveryInstructionKeepsItsFrame: the control, timer and input instructions. -/
theorem witness_frame_control :
    Completes .ret (withStack 1 0x345) ∧ Completes (.jp 0x200) State.reset ∧ Completes (.call 0x200) State.reset ∧
    Completes (.seKk 0x0 0x00) State.reset ∧ Completes (.sneKk 0x0 0x00) State.reset ∧
    Completes (.seVy 0x0 0x1) State.reset ∧ Completes (.sneVy 0x0 0x1) State.reset ∧
    Completes (.jpV0 0x200) State.reset ∧ Completes (.skp 0x0) State.reset ∧ Completes (.sknp 0x0) State.reset ∧
    Completes (.ldVxDT 0x0) State.reset ∧ Completes (.ldVxK 0x0) State.reset ∧ Completes (.ldDTVx 0x0) State.reset ∧
    Completes (.ldSTVx 0x0) State.reset :=
  ⟨⟨rfl, _, rfl, rfl⟩, ⟨rfl, _, rfl, rfl⟩, ⟨rfl, _, rfl, rfl⟩, ⟨rfl, _, rfl, rfl⟩, ⟨rfl, _, rfl, rfl⟩, ⟨rfl, _, rfl, rfl⟩,
    ⟨rfl, _, rfl, rfl⟩, ⟨rfl, _, rfl, rfl⟩, ⟨rfl, _, rfl, rfl⟩, ⟨rfl, _, rfl, rfl⟩, ⟨rfl, _, rfl, rfl⟩, ⟨rfl, _, rfl, rfl⟩,
    ⟨rfl, _, rfl, rfl⟩, ⟨rfl, _, rfl, rfl⟩⟩

/-- NoStepWritesTheKeysOrTheParameter, with a key pressed. -/
theorem witness_step_keys : ∃ t, step (setKey 0xF true (ready 0x6A5C)) = .next t := ⟨_, rfl⟩

/-- OnlyRndReadsTheRandomByte: a fetched word that is not Cxkk. -/
theorem witness_not_rnd : ∀ w x kk, fetch (ready 0x6A5C).mem (ready 0x6A5C).pc = .ok w → decode w ≠ .instr (.rnd x kk) := by
  intro w x kk h
  have hw : w = 0x6A5C := (Except.ok.inj h).symm
  subst hw
  exact fun h => Instr.noConfusion (Decoded.instr.inj h)

/-- IdleStateStaysIdle: P1's end, a self-jump. -/
theorem witness_idle : (ready 0x1200).Idle := ⟨rfl, 0x1200, 0x200, rfl, by decide, rfl⟩

/-- InitSetsEveryResetValue: its ranges at their ends. -/
theorem witness_init_ranges : 0xFFF < 4096 ∧ (0x050 ≤ 0x050 ∧ 0x050 < 0x0A0) ∧ (0x050 ≤ 0x09F ∧ 0x09F < 0x0A0) ∧
    ¬(0x050 ≤ 0x04F) ∧ ¬(0x0A0 < 0x0A0) ∧ 15 < 16 := by decide

/-- LoadProgramCopiesAllOrNothing: HO1 and HO2, and the addresses just outside a load of one byte. -/
theorem witness_load : (ready 0x6A5C).mem.wf ∧ 3584 < (List.replicate 3585 (0x00 : Byte)).length ∧
    (List.replicate 3584 (0x00 : Byte)).length ≤ 3584 ∧ 0 < [(0x60 : Byte)].length ∧
    (0x1FF < 0x200 ∨ 0x200 + [(0x60 : Byte)].length ≤ 0x1FF) ∧
    (0x201 < 0x200 ∨ 0x200 + [(0x60 : Byte)].length ≤ 0x201) := by
  refine ⟨by decide, ?_, ?_, by decide, by decide, by decide⟩
  · rw [List.length_replicate]; decide
  · rw [List.length_replicate]

/-- HostSetsOneKeyAndReadsSoundAndFault: another key than the one set. -/
theorem witness_other_key : 15 ≠ (0xE : Nibble).toNat := by decide

/-- MemoryAccessesAreRangeChecked: the first address outside, the largest any rule forms, and the last inside. -/
theorem witness_memory_range : (ready 0x6A5C).mem.wf ∧ 4096 < 2 ^ 17 ∧ 4096 ≤ 4096 ∧ 0xFFFF + 15 < 2 ^ 17 ∧ 4095 < 4096 ∧
    0x000 ≠ 0xFFF := by decide

/-- AddWithCarrySetsTheCarryOfTheOldValues and ShiftsMoveOneBitIntoTheFlag: a destination other than VF, and VF. -/
theorem witness_not_flag : (0xE : RegIx) ≠ 0xF ∧ (0xF : RegIx) = 0xF := by decide

/-- SubtractReadsOperandsAfterTheFlag: AR17, AR16 and AR18. -/
theorem witness_subtract :
    let s := withRegs [(0x1, 0x05), (0xF, 0x03)]
    ((1 : Byte) = (if (s.reg 0xF).toNat < (s.reg 0x1).toNat then 1 else 0) ∧
      (0x05 : Byte) = (if (0x1 : RegIx) = 0xF then 1 else s.reg 0x1) ∧
      (0x01 : Byte) = (if (0xF : RegIx) = 0xF then 1 else s.reg 0xF) ∧ (0x1 : RegIx) ≠ 0xF) ∧
    ((0 : Byte) = (if (s.reg 0x1).toNat < (s.reg 0xF).toNat then 1 else 0) ∧
      (0x00 : Byte) = (if (0xF : RegIx) = 0xF then 0 else s.reg 0xF) ∧
      (0x05 : Byte) = (if (0x1 : RegIx) = 0xF then 0 else s.reg 0x1)) ∧
    ((0 : Byte) = (if (s.reg 0xF).toNat < (s.reg 0xF).toNat then 1 else 0) ∧
      (0x00 : Byte) = (if (0xF : RegIx) = 0xF then 0 else s.reg 0xF)) := by decide

/-- ReverseSubtractReadsOperandsAfterTheFlag: AR25 and AR24. -/
theorem witness_reverse_subtract :
    let s := withRegs [(0x1, 0x03), (0xF, 0x05)]
    ((1 : Byte) = (if (s.reg 0x1).toNat < (s.reg 0xF).toNat then 1 else 0) ∧
      (0x03 : Byte) = (if (0x1 : RegIx) = 0xF then 1 else s.reg 0x1) ∧
      (0x01 : Byte) = (if (0xF : RegIx) = 0xF then 1 else s.reg 0xF) ∧ (0x1 : RegIx) ≠ 0xF) ∧
    let u := withRegs [(0xF, 0x03), (0x2, 0x05)]
    (1 : Byte) = (if (u.reg 0xF).toNat < (u.reg 0x2).toNat then 1 else 0) ∧
      (0x01 : Byte) = (if (0xF : RegIx) = 0xF then 1 else u.reg 0xF) ∧
      (0x05 : Byte) = (if (0x2 : RegIx) = 0xF then 1 else u.reg 0x2) := by decide

/-- RandomAndMaskUsesTheCyclesDraw. -/
theorem witness_rnd : (ready 0xC30F).fault = none ∧ fetch (ready 0xC30F).mem (ready 0xC30F).pc = .ok 0xC30F ∧
    decode 0xC30F = .instr (.rnd 0x3 0x0F) := ⟨rfl, rfl, by decide⟩

/-- ReturnPopsTheStackOrFaults: the smallest stack that returns, the full one, and the empty one. -/
theorem witness_ret : 0 < (withStack 1 0x345).sp.val ∧ 0 < (withStack 16 0x345).sp.val ∧ State.reset.sp.val = 0 := by decide

/-- CallPushesThePcOrFaults and CallThenReturnComesBack: the empty stack, the last one that takes a call, and the full one. -/
theorem witness_call : State.reset.sp.val < 16 ∧ (withStack 15 0x345).sp.val < 16 ∧ (withStack 16 0x345).sp.val = 16 ∧
    0 ≠ (withStack 15 0x345).sp.val := by decide

/-- CallThenReturnComesBack: a state with the stack and sp a call left, and another pc. -/
theorem witness_call_return : ∃ t v : State, exec (.call 0x400) State.reset = .next t ∧ v.stack = t.stack ∧ v.sp = t.sp ∧
    v.pc ≠ t.pc := ⟨_, { withStack 1 0x345 with stack := State.reset.stack.set 0 0x200, pc := 0x123 }, rfl, rfl, rfl, by decide⟩

/-- JumpWithOffsetAddsV0: a target of exactly 0xFFF. -/
theorem witness_jump_offset : ∃ t, exec (.jpV0 0xFFF) State.reset = .next t ∧ 0xFFF ≤ t.pc.toNat := ⟨_, rfl, by decide⟩

/-- BcdStoresThreeDigitsOrFaults: the last I that stores, and the first and the last that fault. -/
theorem witness_bcd :
    (ready 0xF133).mem.wf ∧ ({ State.reset with I := 0xFFD } : State).I.toNat + 2 < 4096 ∧
    4096 ≤ ({ State.reset with I := 0xFFE } : State).I.toNat + 2 ∧
    4096 ≤ ({ State.reset with I := 0xFFFF } : State).I.toNat + 2 := by decide

/-- BlockStoreCopiesRegistersOrFaults, BlockLoadCopiesMemoryOrFaults, BlockStoreThenLoadRestoresRegisters: the last I that
fits and the first that does not, and the first and last register. -/
theorem witness_block :
    (ready 0xFF55).mem.wf ∧ ({ State.reset with I := 0xFF0 } : State).I.toNat + (0xF : RegIx).toNat < 4096 ∧
    4096 ≤ ({ State.reset with I := 0xFF1 } : State).I.toNat + (0xF : RegIx).toNat ∧
    4096 ≤ ({ State.reset with I := 0x1000 } : State).I.toNat + (0x0 : RegIx).toNat ∧
    (0x0 : RegIx).toNat ≤ (0xF : RegIx).toNat ∧ (0xF : RegIx).toNat ≤ (0xF : RegIx).toNat := by decide

/-- BlockStoreThenLoadRestoresRegisters: a state with the memory and I of the stored state, and other registers. -/
theorem witness_store_load : ∃ t v : State, exec (.storeRegs 0x1) { State.reset with I := 0x300 } = .next t ∧
    v.mem = t.mem ∧ v.I = t.I ∧ v.V ≠ t.V := ⟨_, { withRegs [(0x1, 7)] with I := 0x300 }, rfl, rfl, rfl, by decide⟩

/-- StoredBytesAreFetchedAsTheNextWord: the last pair of a store at the end of memory. -/
theorem witness_stored_fetch : State.reset.mem.wf ∧ ({ State.reset with I := 0xFFE } : State).I.toNat + (0x1 : RegIx).toNat < 4096 ∧
    (0x0 : RegIx).toNat < (0x1 : RegIx).toNat ∧
    (0xFFE : Word).toNat = ({ State.reset with I := 0xFFE } : State).I.toNat + (0x0 : RegIx).toNat := by decide

/-- ReadDelayTimerSeesTheValueBeforeTheCountdown and SetTimersTakeV: a running core. -/
theorem witness_running : ({ State.reset with DT := 9 } : State).fault = none := rfl

/-- DelaySetThenReadIsOneLower: F315 at 0x200, F407 at 0x202. -/
theorem witness_delay_pair :
    let s := withBytes State.reset 0x200 [0xF3, 0x15, 0xF4, 0x07]
    s.fault = none ∧ fetch s.mem s.pc = .ok 0xF315 ∧ decode 0xF315 = .instr (.ldDTVx 0x3) ∧
      fetch s.mem (s.pc + 2) = .ok 0xF407 ∧ decode 0xF407 = .instr (.ldVxDT 0x4) :=
  ⟨rfl, rfl, by decide, rfl, by decide⟩

/-- DR6's start: one pixel at (63, 5). -/
def dot : State := withBytes { withRegs [(0x1, 0x7F), (0x2, 0x25)] with I := 0x300 } 0x300 [0x80]

/-- DrawXorsTheSpriteAndReportsCollision, DrawingTwiceRestoresTheScreen: DR6 under every policy. -/
theorem witness_draw (edge : SpriteEdge) :
    let s := { dot with spriteEdge := edge }
    (0x1 : RegIx) ≠ 0xF ∧ (0x2 : RegIx) ≠ 0xF ∧ (∀ r, r < (0x1 : Nibble).toNat → s.I.toNat + r < 4096) ∧
      (s.spriteEdge = .fault → ∀ r c, r < (0x1 : Nibble).toNat → ¬s.Overhangs 0x1 0x2 r c) ∧
      s.Covers 0x1 0x2 0x1 63 5 ∧ (∀ px py, s.fb.pixel px py = false) := by
  refine ⟨by decide, by decide, fun r hr => ?_, fun _ r c hr h => ?_, ⟨0, 0, by decide, by decide, ?_, .inl ⟨?_, ?_⟩⟩, ?_⟩
  · have h1 : r < 1 := hr
    show 0x300 + r < 4096
    omega
  · have h1 : r < 1 := hr
    have h0 : r = 0 := by omega
    subst h0
    obtain ⟨hc, hb, ho⟩ := h
    have hc0 : c = 0 := (by decide : ∀ c, c < 8 → dot.spriteBit 0 c = true → c = 0) c hc hb
    subst hc0
    exact ho (by show dot.originX 0x1 + 0 < 64 ∧ dot.originY 0x2 + 0 < 32; decide)
  · show dot.spriteBit 0 0 = true
    decide
  · show dot.originX 0x1 + 0 = 63
    decide
  · show dot.originY 0x2 + 0 = 5
    decide
  · intro px py
    simp [dot, withBytes, withRegs, State.reset, Framebuffer.pixel]

/-- DrawXorsTheSpriteAndReportsCollision: DR6 with its pixel already on. -/
theorem witness_draw_collision : dot.Covers 0x1 0x2 0x1 63 5 ∧ (withPixels dot [(63, 5)]).Covers 0x1 0x2 0x1 63 5 ∧
    (withPixels dot [(63, 5)]).fb.pixel 63 5 = true :=
  ⟨⟨0, 0, by decide, by decide, rfl, .inl ⟨rfl, rfl⟩⟩, ⟨0, 0, by decide, by decide, rfl, .inl ⟨rfl, rfl⟩⟩, rfl⟩

/-- DrawXorsTheSpriteAndReportsCollision: a pixel DR6 leaves alone. -/
theorem witness_draw_outside : ¬dot.Covers 0x1 0x2 0x1 0 0 := by
  rintro ⟨r, c, hr, hc, hb, h⟩
  have hr0 : r = 0 := by
    have : r < 1 := hr
    omega
  subst hr0
  rcases h with ⟨h, -⟩ | ⟨h, -⟩
  · have : 63 + c = 0 := h
    omega
  · exact SpriteEdge.noConfusion h

/-- DrawXorsTheSpriteAndReportsCollision: a wrapped pixel (DR2) and a clipped row (DR1). -/
theorem witness_draw_wrap : (cornerSprite .wrap).Covers 0x1 0x2 0x3 0 0 ∧ (cornerSprite .clip).Covers 0x1 0x2 0x3 63 31 :=
  ⟨⟨2, 4, by decide, by decide, rfl, .inr ⟨rfl, rfl, rfl⟩⟩, ⟨1, 3, by decide, by decide, rfl, .inl ⟨rfl, rfl⟩⟩⟩

/-- DrawPastMemoryEndFaults: DR9, row 2 at 0x1000. -/
theorem witness_draw_memory :
    let s := withBytes { State.reset with I := 0xFFE } 0xFFE [0x80, 0x80]
    2 < (0x3 : Nibble).toNat ∧ 4096 ≤ s.I.toNat + 2 ∧ (∀ q, q < 2 → s.I.toNat + q < 4096) ∧
      (s.spriteEdge = .fault → ∀ q c, q < 2 → ¬s.Overhangs 0x0 0x1 q c) := by
  refine ⟨by decide, by decide, by decide, fun h => SpriteEdge.noConfusion h⟩

/-- DrawOutsideTheGridFaultsUnderPolicyFault: DR3, row 0, column 4. -/
theorem witness_draw_overhang :
    let s := cornerSprite .fault
    s.spriteEdge = .fault ∧ 0 < (0x3 : Nibble).toNat ∧ (∀ q, q ≤ 0 → s.I.toNat + q < 4096) ∧ s.Overhangs 0x1 0x2 0 4 ∧
      (∀ q d, (q < 0 ∨ (q = 0 ∧ d < 4)) → ¬s.Overhangs 0x1 0x2 q d) := by
  refine ⟨rfl, by decide, fun q hq => ?_, ⟨by decide, rfl, by decide⟩, fun q d h ho => ?_⟩
  · show 0x300 + q < 4096
    omega
  · obtain ⟨hd, -, hg⟩ := ho
    rcases h with h | ⟨rfl, h⟩
    · omega
    · refine hg ⟨?_, by decide⟩
      show 60 + d < 64
      omega

/-- KeySkipsTestTheNamedKeyOrFault: the last key, and the first number that is none. -/
theorem witness_key : ((withRegs [(0x5, 15)]).reg 0x5).toNat < 16 ∧ 16 ≤ ((withRegs [(0x5, 16)]).reg 0x5).toNat := by decide

/-- WaitForKeyTakesTheLowestOrReexecutes: KY6, and the highest key alone. -/
theorem witness_wait_pressed :
    ((setKey 7 true (setKey 3 true State.reset)).keys[3]? = some true ∧
      ∀ j, j < 3 → (setKey 7 true (setKey 3 true State.reset)).keys[j]? = some false) ∧
    ((setKey 15 true State.reset).keys[15]? = some true ∧
      ∀ j, j < 15 → (setKey 15 true State.reset).keys[j]? = some false) := by decide

/-- WaitForKeyTakesTheLowestOrReexecutes: KY7, and a running core's next state. -/
theorem witness_wait_none : (∀ k, k < 16 → State.reset.keys[k]? = some false) ∧
    ∃ t, exec (.ldVxK 0x1) State.reset = .next t ∧ State.reset.fault = none := ⟨by decide, _, rfl, rfl⟩

end Sys2Proof.Tests
end

/-! PROOFS of the family 00_scope.md: memory after Init with the default FONT, and the reset state (R6, R52, R270). -/

namespace Sys2Proof.Machine

/-- Memory lists only the cells that differ from the reset contents (log entry 7), so bytes equal to them list none. -/
theorem Memory.writeAll_nil_of_unlisted {bytes : List Byte} {addr : Nat}
    (h : ∀ i (hi : i < bytes.length), bytes[i] = Memory.unlisted (addr + i)) :
    Memory.writeAll [] addr bytes = [] := by
  induction bytes generalizing addr with
  | nil => rfl
  | cons v vs ih =>
    have hhead : v = Memory.unlisted addr := h 0 (by simp)
    have htail : ∀ i (hi : i < vs.length), vs[i] = Memory.unlisted (addr + 1 + i) := by
      intro i hi
      rw [Nat.add_assoc, Nat.add_comm 1]
      exact h (i + 1) (Nat.succ_lt_succ hi)
    simp only [Memory.writeAll, Memory.write, if_pos hhead]
    exact ih htail

/-- The reset contents at 0x050 and up are the default FONT's bytes (R52, R270). -/
theorem Memory.unlisted_fontBase_add {i : Nat} (hi : i < Config.defaultFont.toList.length) :
    Memory.unlisted (Config.fontBase + i) = Config.defaultFont.toList[i] := by
  rw [Memory.unlisted, if_pos (Nat.le_add_right _ _), Nat.add_sub_cancel_left, List.getD_eq_getElem _ _ hi]

/-- Init with the default FONT lists no cell, as reset does (R52, R270). -/
theorem Memory.ofFont_defaultFont : Memory.ofFont Config.defaultFont = State.reset.mem :=
  Memory.writeAll_nil_of_unlisted fun _ hi => (Memory.unlisted_fontBase_add hi).symm

/-- Settles O22: the font written is the reset contents, and Init sets every other field but the draw index as reset does. -/
theorem resetIsInitWithTheDefaultParameters : Obligations.ResetIsInitWithTheDefaultParameters := by
  unfold Obligations.ResetIsInitWithTheDefaultParameters
  intro s
  rw [init, Memory.ofFont_defaultFont]
  rfl

end Sys2Proof.Machine

/-! PROOFS of the family 10_state.md: ReadFramebuffer's order (R31), what each instruction may write (R20 to R32), the
host-owned fields no step writes (R32, R6), and the random byte only Cxkk reads (R35). -/

namespace Sys2Proof.Machine

/-! ReadFramebuffer (R31, R255) -/

/-- The list read is the framebuffer with its 32 rows of 64 pixels laid end to end. -/
theorem readFramebuffer_eq_flatten (s : State) : readFramebuffer s = s.fb.flatten.toList := by
  have hflat : s.fb.flatten.toList = (s.fb.toArray.map Vector.toArray).flatten.toList := rfl
  rw [hflat, Array.toList_flatten, Array.toList_map, List.map_map]
  rfl

/-- Settles O25: an element of the flattened framebuffer has its index's quotient by 64 as row and the remainder as column. -/
theorem framebufferReadIsRowMajor : Obligations.FramebufferReadIsRowMajor := by
  unfold Obligations.FramebufferReadIsRowMajor
  intro s
  rw [readFramebuffer_eq_flatten]
  refine ⟨Vector.length_toList, fun px py => ?_⟩
  have hrow : (py.val * 64 + px.val) / 64 = py.val := by omega
  have hcol : (py.val * 64 + px.val) % 64 = px.val := by omega
  rw [Vector.getElem?_toList, Vector.getElem?_eq_getElem (by omega), Vector.getElem_flatten]
  simp only [hrow, hcol]
  rfl

/-! One frame rule per state operation: a write inside what an instruction may touch keeps its frame. -/

theorem Frame.refl (w : Touch) (s : State) : Frame w s s := by simp [Frame]

section FrameRules

variable {w : Touch} {s t : State}

theorem Frame.setReg {x : RegIx} {v : Byte} (h : Frame w s t) (hx : x ∈ w.regs) : Frame w s (t.setReg x v) := by
  obtain ⟨hreg, hrest⟩ := h
  refine ⟨fun r hr => ?_, hrest⟩
  rw [State.reg_setReg_ne t v (ne_of_mem_of_not_mem hx hr).symm, hreg r hr]

theorem Frame.setV {V : Registers} (h : Frame w s t) (hV : ∀ r, r ∉ w.regs → (t.setV V).reg r = s.reg r) :
    Frame w s (t.setV V) := by
  obtain ⟨-, hrest⟩ := h
  exact ⟨hV, hrest⟩

theorem Frame.setMem {m : Memory} (h : Frame w s t) (hm : ∀ a, a ∉ w.cells → m.read a = s.mem.read a) :
    Frame w s (t.setMem m) := by
  obtain ⟨hreg, -, hrest⟩ := h
  exact ⟨hreg, hm, hrest⟩

theorem Frame.setI {v : Word} (h : Frame w s t) (hw : w.index = true) : Frame w s (t.setI v) := by
  obtain ⟨hreg, hmem, -, hrest⟩ := h
  exact ⟨hreg, hmem, by simp [hw], hrest⟩

theorem Frame.setPc {v : Word} (h : Frame w s t) (hw : w.pc = true) : Frame w s (t.setPc v) := by
  obtain ⟨hreg, hmem, hI, -, hrest⟩ := h
  exact ⟨hreg, hmem, hI, by simp [hw], hrest⟩

theorem Frame.skipIf {c : Bool} (h : Frame w s t) (hw : w.pc = true) : Frame w s (t.skipIf c) :=
  State.skipIf_eq t c ▸ h.setPc hw

theorem Frame.push {v : Word} {u : State} (h : Frame w s t) (hstack : w.stack = true) (hsp : w.sp = true)
    (hu : t.push v = .ok u) : Frame w s u := by
  obtain ⟨hreg, hmem, hI, hpc, -, -, hrest⟩ := h
  obtain hlt | hfull : t.sp.val < 16 ∨ t.sp.val = 16 := by omega
  · rw [State.push_ok v hlt, Except.ok.injEq] at hu
    subst hu
    exact ⟨hreg, hmem, hI, hpc, by simp [hstack], by simp [hsp], hrest⟩
  · simp [State.push_full v hfull] at hu

theorem Frame.popPc {u : State} (h : Frame w s t) (hpc : w.pc = true) (hsp : w.sp = true)
    (hu : t.popPc = .ok u) : Frame w s u := by
  obtain ⟨hreg, hmem, hI, -, hstack, -, hrest⟩ := h
  obtain hempty | hpos := Nat.eq_zero_or_pos t.sp.val
  · simp [State.popPc_empty hempty] at hu
  · rw [State.popPc_ok hpos, Except.ok.injEq] at hu
    subst hu
    exact ⟨hreg, hmem, hI, by simp [hpc], hstack, by simp [hsp], hrest⟩

theorem Frame.setDT {v : Byte} (h : Frame w s t) (hw : w.delay = true) : Frame w s (t.setDT v) := by
  obtain ⟨hreg, hmem, hI, hpc, hstack, hsp, -, hrest⟩ := h
  exact ⟨hreg, hmem, hI, hpc, hstack, hsp, by simp [hw], hrest⟩

theorem Frame.setST {v : Byte} (h : Frame w s t) (hw : w.sound = true) : Frame w s (t.setST v) := by
  obtain ⟨hreg, hmem, hI, hpc, hstack, hsp, hDT, -, hrest⟩ := h
  exact ⟨hreg, hmem, hI, hpc, hstack, hsp, hDT, by simp [hw], hrest⟩

theorem Frame.setFb {f : Framebuffer} (h : Frame w s t) (hw : w.screen = true) : Frame w s (t.setFb f) := by
  obtain ⟨hreg, hmem, hI, hpc, hstack, hsp, hDT, hST, -, hrest⟩ := h
  exact ⟨hreg, hmem, hI, hpc, hstack, hsp, hDT, hST, by simp [hw], hrest⟩

/-- The keys and SPRITE_EDGE are in no instruction's frame (R32, R6). -/
theorem Frame.keys_spriteEdge (h : Frame w s t) : t.keys = s.keys ∧ t.spriteEdge = s.spriteEdge := by
  obtain ⟨-, -, -, -, -, -, -, -, -, hkeys, -, hedge, -⟩ := h
  exact ⟨hkeys, hedge⟩

end FrameRules

/-! The cells and registers a block access names (R160, R165, R166) -/

theorem State.not_mem_indexCells {s : State} {n a : Nat} (h : a ∉ s.indexCells n) :
    a < s.indexAddr 0 ∨ s.indexAddr 0 + n ≤ a := by
  by_contra! hin
  exact h (List.mem_map.2 ⟨a - s.indexAddr 0, List.mem_range.2 (by omega), by omega⟩)

theorem State.length_regsUpTo (s : State) (x : RegIx) : (s.regsUpTo x).length = x.toNat + 1 := by
  rw [State.regsUpTo, List.length_take, Vector.length_toList]
  exact Nat.min_eq_left x.isLt

theorem not_mem_regsThrough {x r : RegIx} (h : r ∉ regsThrough x) : x.toNat < r.toNat := by
  by_contra! hle
  exact h (List.mem_map.2 ⟨r.toNat, List.mem_range.2 (Nat.lt_succ_of_le hle), BitVec.ofNat_toNat ..⟩)

/-- A checked byte sequence that completes is the unchecked one (R54). -/
theorem memWriteBytes_ok {m m' : Memory} {addr : Nat} {bytes : List Byte} (h : memWriteBytes m addr bytes = .ok m') :
    m' = m.writeAll addr bytes := by
  rw [memWriteBytes_eq] at h
  split at h
  · exact (Except.ok.inj h).symm
  · cases h

/-- A checked read of `n` bytes that completes answers `n` bytes (R54). -/
theorem length_of_memReadBytes_ok {m : Memory} {addr n : Nat} {bytes : List Byte}
    (h : memReadBytes m addr n = .ok bytes) : bytes.length = n := by
  rw [memReadBytes_eq] at h
  split at h
  · rw [← Except.ok.inj h, List.length_map, List.length_range]
  · cases h

/-- A block store that completes changes only the cells from I on (R164, R165). -/
theorem Frame.storeBytes {w : Touch} {s : State} {m : Memory} {bytes : List Byte}
    (hm : memWriteBytes s.mem (s.indexAddr 0) bytes = .ok m) (hw : w.cells = s.indexCells bytes.length) :
    Frame w s (s.setMem m) := by
  refine (Frame.refl w s).setMem fun a ha => ?_
  rw [memWriteBytes_ok hm, Memory.read_writeAll_outside _ _ _ _ (State.not_mem_indexCells (hw ▸ ha))]

/-- A list of registers written from number `i` on leaves the registers past its end. -/
theorem getElem_setRegsFrom_of_le (V : Registers) (i : Nat) (vs : List Byte) {j : Nat} (hj : j < 16)
    (h : i + vs.length ≤ j) : (setRegsFrom V i vs)[j] = V[j] := by
  induction vs generalizing V i with
  | nil => rfl
  | cons v vs ih =>
    simp only [List.length_cons] at h
    rw [setRegsFrom, ih _ _ (by omega), Vector.getElem_setIfInBounds_ne hj (by omega)]

/-- A block load that completes changes only V0 to Vx (R166). -/
theorem Frame.loadBytes {w : Touch} {s : State} {x : RegIx} {bytes : List Byte}
    (hb : memReadBytes s.mem (s.indexAddr 0) (x.toNat + 1) = .ok bytes) (hw : w.regs = regsThrough x) :
    Frame w s (s.setV (setRegsFrom s.V 0 bytes)) := by
  refine (Frame.refl w s).setV fun r hr => ?_
  have hlen : bytes.length = x.toNat + 1 := length_of_memReadBytes_ok hb
  have hlt : x.toNat < r.toNat := not_mem_regsThrough (hw ▸ hr)
  exact getElem_setRegsFrom_of_le _ _ _ r.isLt (by omega)

/-! What Execute can do (R103, R243) -/

/-- A `commit` keeps the frame its writes keep, or takes a fault. -/
theorem commit_frame_or_fault {w : Touch} {s t : State} {e : Except Raised State} (h : commit s e = .next t)
    (hf : ∀ u, e = .ok u → Frame w s u) : Frame w s t ∨ ∃ r, t = s.takeFault r := by
  obtain hok | ⟨r, -, hr⟩ := commit_next h
  · exact .inl (hf t hok)
  · exact .inr ⟨r, hr⟩

/-- The same where the writes are made from what an operation answers. -/
theorem commit_map_frame_or_fault {α : Type} {w : Touch} {s t : State} {e : Except Raised α} {f : α → State}
    (h : commit s (e.map f) = .next t) (hf : ∀ a, e = .ok a → Frame w s (f a)) :
    Frame w s t ∨ ∃ r, t = s.takeFault r := by
  refine commit_frame_or_fault h fun u hu => ?_
  cases e with
  | ok a => exact Except.ok.inj hu ▸ hf a rfl
  | error r => cases hu

/-- An instruction that raises nothing keeps the frame its writes keep. -/
theorem next_frame_or_fault {w : Touch} {s t u : State} (h : (.next u : Result) = .next t) (hf : Frame w s u) :
    Frame w s t ∨ ∃ r, t = s.takeFault r := .inl (Host.Outcome.next.inj h ▸ hf)

/-- Fx0A with a key pressed (R213). -/
theorem execLdVxK_some {s : State} {k : Nat} (x : RegIx) (h : s.firstKey = some k) :
    execLdVxK x s = .next (s.setReg x (BitVec.ofNat 8 k)) := by
  simp [execLdVxK, h]

/-- Fx0A with no key pressed (R213). -/
theorem execLdVxK_none {s : State} (x : RegIx) (h : s.firstKey = none) :
    execLdVxK x s = .next (s.setPc (s.pc - 2)) := by
  simp [execLdVxK, h]

/-- Everything Execute can do to a state: write inside the instruction's frame, or take a fault. -/
theorem exec_frame_or_fault {i : Instr} {s t : State} (h : exec i s = .next t) :
    Frame (touches i s) s t ∨ ∃ r, t = s.takeFault r := by
  have hs : Frame (touches i s) s s := .refl _ s
  cases i with
  | cls => exact next_frame_or_fault h (hs.setFb rfl)
  | ret => exact commit_frame_or_fault h fun _ => hs.popPc rfl rfl
  | jp | jpV0 => exact next_frame_or_fault h (hs.setPc rfl)
  | call => exact commit_map_frame_or_fault h fun _ hu => (hs.push rfl rfl hu).setPc rfl
  | seKk | sneKk | seVy | sneVy => exact next_frame_or_fault h (hs.skipIf rfl)
  | ldKk x | addKk x | ldVy x | orVy x | andVy x | xorVy x | rnd x | ldVxDT x =>
    exact next_frame_or_fault h (hs.setReg (.head _))
  | addVy x | subVy x | shr x | subnVy x | shl x =>
    exact next_frame_or_fault h ((hs.setReg (x := flagReg) (.tail _ (.head _))).setReg (.head _))
  | ldI | addI | ldF => exact next_frame_or_fault h (hs.setI rfl)
  | drw => exact commit_map_frame_or_fault h fun _ _ => (hs.setFb rfl).setReg (.head _)
  | skp | sknp => exact commit_map_frame_or_fault h fun _ _ => hs.skipIf rfl
  | ldVxK x =>
    cases hk : s.firstKey with
    | some k => exact next_frame_or_fault ((execLdVxK_some x hk).symm.trans h) (hs.setReg (.head _))
    | none => exact next_frame_or_fault ((execLdVxK_none x hk).symm.trans h) (hs.setPc rfl)
  | ldDTVx => exact next_frame_or_fault h (hs.setDT rfl)
  | ldSTVx => exact next_frame_or_fault h (hs.setST rfl)
  | ldB => exact commit_map_frame_or_fault h fun _ hm => .storeBytes hm rfl
  | storeRegs x => exact commit_map_frame_or_fault h fun _ hm => .storeBytes hm (by rw [State.length_regsUpTo]; rfl)
  | loadRegs => exact commit_map_frame_or_fault h fun _ hb => .loadBytes hb rfl

/-- Settles O17: Execute writes inside the frame or takes a fault, and a taken fault is recorded. -/
theorem everyInstructionKeepsItsFrame : Obligations.EveryInstructionKeepsItsFrame := by
  unfold Obligations.EveryInstructionKeepsItsFrame
  intro i s t _ hexec ht
  obtain hframe | ⟨r, rfl⟩ := exec_frame_or_fault hexec
  · exact hframe
  · cases ht

/-- A fault writes the pc and the fault register only, so Execute keeps the host's keys and the parameter either way. -/
theorem exec_keys_spriteEdge {i : Instr} {s t : State} (h : exec i s = .next t) :
    t.keys = s.keys ∧ t.spriteEdge = s.spriteEdge := by
  obtain hframe | ⟨r, rfl⟩ := exec_frame_or_fault h
  · exact hframe.keys_spriteEdge
  · exact ⟨rfl, rfl⟩

/-- The end of the cycle comes after a next state only (R104). -/
theorem finishCycle_next {e : Result} {t : State} (h : finishCycle e = .next t) :
    ∃ u, e = .next u ∧ t = u.endCycle := by
  cases e with
  | next u => exact ⟨u, rfl, (Host.Outcome.next.inj h).symm⟩
  | fault r => cases h
  | refused r => cases h

/-- Settles O18: a stopped core, a fetch fault and a miss leave both fields, and an executed instruction does by its frame. -/
theorem noStepWritesTheKeysOrTheParameter : Obligations.NoStepWritesTheKeysOrTheParameter := by
  unfold Obligations.NoStepWritesTheKeysOrTheParameter
  intro s t hstep
  obtain ⟨-, hc⟩ | ⟨-, -, hc⟩ | ⟨-, w, m, -, -, hc⟩ | ⟨-, w, i, -, -, hc⟩ := cycle_cases (Config.rnd s.draw) s
  · obtain rfl := Host.Outcome.next.inj (hc.symm.trans hstep)
    exact ⟨rfl, rfl⟩
  · obtain rfl := Host.Outcome.next.inj (hc.symm.trans hstep)
    exact ⟨rfl, rfl⟩
  · obtain rfl := Host.Outcome.next.inj (hc.symm.trans hstep)
    simp
  · obtain ⟨u, hexec, rfl⟩ := finishCycle_next (hc.symm.trans hstep)
    simpa using exec_keys_spriteEdge hexec

/-! The random byte (R35, R132): Execute of every instruction but Cxkk carries it along and reads it nowhere. -/

/-- The state with another random byte for the running cycle. -/
def State.reseed (s : State) (b : Byte) : State := { s with scratch := { s.scratch with rnd := b } }

/-- The result with another random byte in its next state. -/
def reseedResult (b : Byte) : Result → Result
  | .next t => .next (t.reseed b)
  | .fault r => .fault r
  | .refused r => .refused r

theorem State.skipIf_reseed (s : State) (b : Byte) (c : Bool) : (s.reseed b).skipIf c = (s.skipIf c).reseed b := by
  cases c <;> rfl

theorem State.push_reseed (s : State) (b : Byte) (v : Word) :
    (s.reseed b).push v = (s.push v).map (·.reseed b) := by
  by_cases h : s.sp.val < 16
  · rw [State.push_ok v h, State.push_ok (s := s.reseed b) v h]
    rfl
  · have hfull : s.sp.val = 16 := by omega
    rw [State.push_full v hfull, State.push_full (s := s.reseed b) v hfull]
    rfl

theorem State.popPc_reseed (s : State) (b : Byte) : (s.reseed b).popPc = s.popPc.map (·.reseed b) := by
  obtain hempty | hpos := Nat.eq_zero_or_pos s.sp.val
  · rw [State.popPc_empty hempty, State.popPc_empty (s := s.reseed b) hempty]
    rfl
  · rw [State.popPc_ok hpos, State.popPc_ok (s := s.reseed b) hpos]
    rfl

/-- A `commit` carries the random byte along if its writes do: taking a fault reads the address and word only (R243). -/
theorem commit_reseed {s : State} {b : Byte} {e e' : Except Raised State} (he : e' = e.map (·.reseed b)) :
    commit (s.reseed b) e' = reseedResult b (commit s e) := by
  subst he
  cases e <;> rfl

/-- The same where the writes are made from what an operation answers. -/
theorem commit_map_reseed {α : Type} {s : State} {b : Byte} (e : Except Raised α) {f g : α → State}
    (hfg : ∀ a, g a = (f a).reseed b) : commit (s.reseed b) (e.map g) = reseedResult b (commit s (e.map f)) := by
  refine commit_reseed ?_
  cases e with
  | ok a => exact congrArg Except.ok (hfg a)
  | error r => rfl

theorem execLdVxK_reseed (x : RegIx) (s : State) (b : Byte) :
    execLdVxK x (s.reseed b) = reseedResult b (execLdVxK x s) := by
  cases hk : s.firstKey with
  | some k =>
    rw [execLdVxK_some x hk, execLdVxK_some (s := s.reseed b) x hk]
    rfl
  | none =>
    rw [execLdVxK_none x hk, execLdVxK_none (s := s.reseed b) x hk]
    rfl

/-- Execute of an instruction other than Cxkk does the same whatever the random byte (R35). -/
theorem exec_reseed {i : Instr} (s : State) (b : Byte) (hi : ∀ x kk, i ≠ .rnd x kk) :
    exec i (s.reseed b) = reseedResult b (exec i s) := by
  cases i with
  | rnd x kk => exact absurd rfl (hi x kk)
  | ret => exact commit_reseed (s.popPc_reseed b)
  | call nnn =>
    refine commit_reseed (e := (s.push s.pc).map _) ?_
    change ((s.reseed b).push s.pc).map _ = _
    rw [State.push_reseed]
    cases s.push s.pc <;> rfl
  | seKk | sneKk | seVy | sneVy => exact congrArg Host.Outcome.next (State.skipIf_reseed ..)
  | skp | sknp => exact commit_map_reseed _ fun _ => State.skipIf_reseed ..
  | drw | ldB | storeRegs | loadRegs => exact commit_map_reseed _ fun _ => rfl
  | ldVxK x => exact execLdVxK_reseed x s b
  | _ => rfl

/-- The same for a fetched word, miss or instruction (R79, R103). -/
theorem executeWord_reseed {w : Word} (s : State) (b : Byte) (hw : ∀ x kk, decode w ≠ .instr (.rnd x kk)) :
    executeWord w (s.reseed b) = reseedResult b (executeWord w s) := by
  unfold executeWord
  cases hd : decode w with
  | miss m => rfl
  | instr i => exact exec_reseed s b fun x kk hi => hw x kk (hi ▸ hd)

/-- The cycle's end drops the random byte with the other scratch values (R34). -/
theorem State.endCycle_reseed (t : State) (b : Byte) : (t.reseed b).endCycle = t.endCycle := by
  by_cases h : t.fault = none
  · rw [State.endCycle_of_running h, State.endCycle_of_running (s := t.reseed b) h]
    rfl
  · rw [State.endCycle_of_faulted h, State.endCycle_of_faulted (s := t.reseed b) h]
    rfl

theorem finishCycle_reseedResult (b : Byte) (e : Result) : finishCycle (reseedResult b e) = finishCycle e := by
  cases e with
  | next t => exact congrArg Host.Outcome.next (State.endCycle_reseed t b)
  | fault r => rfl
  | refused r => rfl

/-- Settles O19: two bytes start the cycle in states that differ in the scratch byte only, which Execute carries along and
the cycle's end drops. -/
theorem onlyRndReadsTheRandomByte : Obligations.OnlyRndReadsTheRandomByte := by
  unfold Obligations.OnlyRndReadsTheRandomByte
  intro s b c hw
  unfold cycle
  cases s.fault with
  | some r => rfl
  | none =>
    cases hf : fetch s.mem s.pc with
    | error r => exact finishCycle_reseedResult b (.next ((s.latch 0 c).takeFault r))
    | ok w =>
      calc finishCycle (executeWord w (s.latch w b).advancePc)
          = finishCycle (executeWord w ((s.latch w c).advancePc.reseed b)) := rfl
        _ = finishCycle (reseedResult b (executeWord w (s.latch w c).advancePc)) := by
          rw [executeWord_reseed _ b fun x kk => hw w x kk hf]
        _ = finishCycle (executeWord w (s.latch w c).advancePc) := finishCycle_reseedResult b _

end Sys2Proof.Machine

/-! PROOFS of the family 20_memory.md: the range check of MemRead and MemWrite (R54), LoadProgram (R65), and a fetch from
bytes Fx55 stored (R64, R165). -/

namespace Sys2Proof.Machine

/-! The range check (R54) -/

/-- Settles O26: one check on the address decides both primitives, the info field holds any address below 2^17, and a write
that passes the check reads back. -/
theorem memoryAccessesAreRangeChecked : Obligations.MemoryAccessesAreRangeChecked := by
  unfold Obligations.MemoryAccessesAreRangeChecked
  intro m addr v hwf haddr
  constructor
  · intro hout
    rw [memRead_eq, memWrite_eq, if_pos hout, if_pos hout]
    exact ⟨_, rfl, rfl, rfl, (BitVec.toNat_ofNat ..).trans (Nat.mod_eq_of_lt haddr)⟩
  · intro hin
    rw [memRead_eq, memWrite_eq, if_neg (Nat.not_le.2 hin), if_neg (Nat.not_le.2 hin)]
    exact ⟨rfl, _, rfl, Memory.read_write_self addr v hwf, fun _ hb => Memory.read_write_ne m v hb⟩

/-! LoadProgram (R65) -/

/-- Everything LoadProgram can do: refuse a program longer than 3584 bytes, or write it from 0x200 on. -/
theorem loadProgram_eq (bytes : List Byte) (s : State) :
    loadProgram bytes s =
      if 3584 < bytes.length then (s, .loadError) else (s.setMem (s.mem.writeAll 0x200 bytes), .ok) := rfl

/-- Settles O23: 3584 bytes from 0x200 on end at the last address, so a load that passes the check is a byte sequence inside
the address space. -/
theorem loadProgramCopiesAllOrNothing : Obligations.LoadProgramCopiesAllOrNothing := by
  unfold Obligations.LoadProgramCopiesAllOrNothing
  intro bytes s hwf
  constructor
  · intro hlong
    rw [loadProgram_eq, if_pos hlong]
  · intro hfits
    have hend : 0x200 + bytes.length ≤ Config.memSize := Nat.add_le_add_left hfits 0x200
    rw [loadProgram_eq, if_neg (Nat.not_lt.2 hfits)]
    refine ⟨s.mem.writeAll 0x200 bytes, rfl, Memory.writeAll_wf bytes hwf hend, fun i hi => ?_, fun a ha => ?_⟩
    · rw [Memory.read_writeAll_inside bytes hwf hend hi, List.getElem?_eq_getElem hi]
    · exact Memory.read_writeAll_outside s.mem 0x200 a bytes ha

/-! A fetch from bytes Fx55 stored (R64, R165) -/

/-- Fx55 of a block inside memory completes, and writes V0 to Vx from I on (R165). -/
theorem execStoreRegs_ok {x : RegIx} {s : State} (h : s.I.toNat + x.toNat < 4096) :
    exec (.storeRegs x) s = .next (s.setMem (s.mem.writeAll s.I.toNat (s.regsUpTo x))) := by
  have hend : s.I.toNat + (s.regsUpTo x).length ≤ 4096 := by rw [State.length_regsUpTo]; omega
  change commit s ((memWriteBytes s.mem s.I.toNat (s.regsUpTo x)).map s.setMem) = _
  rw [memWriteBytes_eq, if_pos (.inl hend)]
  rfl

/-- The stored block's byte at I + i is V[i] (R165). -/
theorem Memory.read_writeAll_regsUpTo {s : State} {x i : RegIx} (hwf : s.mem.wf) (h : s.I.toNat + x.toNat < 4096)
    (hi : i.toNat ≤ x.toNat) :
    (s.mem.writeAll s.I.toNat (s.regsUpTo x)).read (s.I.toNat + i.toNat) = s.reg i := by
  have hlen : (s.regsUpTo x).length = x.toNat + 1 := s.length_regsUpTo x
  have hend : s.I.toNat + (s.regsUpTo x).length ≤ Config.memSize := by rw [hlen]; exact h
  rw [Memory.read_writeAll_inside _ hwf hend (by omega)]
  exact List.getElem_take

/-- Settles O49: the two bytes the fetch reads are the stored V[i] and V[i + 1]; `i + 1` does not wrap, since `i < x`. -/
theorem storedBytesAreFetchedAsTheNextWord : Obligations.StoredBytesAreFetchedAsTheNextWord := by
  unfold Obligations.StoredBytesAreFetchedAsTheNextWord
  intro x s hwf hx
  refine ⟨_, execStoreRegs_ok hx, fun a i hi ha => ?_⟩
  have hsucc : (i + 1).toNat = i.toNat + 1 := by bv_omega
  have hhi := Memory.read_writeAll_regsUpTo hwf hx (Nat.le_of_lt hi)
  have hlo := Memory.read_writeAll_regsUpTo (i := i + 1) hwf hx (hsucc ▸ hi)
  rw [hsucc, ← Nat.add_assoc] at hlo
  rw [State.setMem_mem, fetch_eq, if_pos (by omega), ha, hhi, hlo]
  exact ⟨_, rfl, toNat_wordOfBytes _ _⟩

end Sys2Proof.Machine

/-! PROOFS of the family 30_encoding.md: the fields (R71), the decoder against the opcode map R80 and its misses (R79, R82),
the canonical words (R85), and the assembler lines of R84. -/

namespace Sys2Proof

/-! The fields as numbers, and a word from its fields (R71) -/

theorem opField_toNat (w : Word) : (opField w).toNat = w.toNat / 4096 := by
  rw [opField, toNat_field]
  omega

theorem xField_toNat (w : Word) : (xField w).toNat = w.toNat / 256 % 16 := toNat_field w 8 4

theorem yField_toNat (w : Word) : (yField w).toNat = w.toNat / 16 % 16 := toNat_field w 4 4

theorem nField_toNat (w : Word) : (nField w).toNat = w.toNat % 16 := by
  rw [nField, toNat_field]
  omega

theorem kkField_toNat (w : Word) : (kkField w).toNat = w.toNat % 256 := by
  rw [kkField, toNat_field]
  omega

theorem nnnField_toNat (w : Word) : (nnnField w).toNat = w.toNat % 4096 := by
  rw [nnnField, toNat_field]
  omega

/-- Settles O4: each field is the quotient and remainder of its bits. -/
theorem instructionFieldsAreTheNamedBits : Obligations.InstructionFieldsAreTheNamedBits := by
  unfold Obligations.InstructionFieldsAreTheNamedBits
  intro w
  exact ⟨opField_toNat w, xField_toNat w, yField_toNat w, nField_toNat w, kkField_toNat w, nnnField_toNat w⟩

theorem eq_nnn_iff {w : Word} {a : Nibble} {k : Addr} :
    w = (a ++ k : BitVec 16) ↔ opField w = a ∧ nnnField w = k := by
  constructor
  · rintro rfl
    simp
  · rintro ⟨rfl, rfl⟩
    apply BitVec.eq_of_toNat_eq
    rw [toNat_nnn, opField_toNat, nnnField_toNat]
    omega

theorem eq_xkk_iff {w : Word} {a x : Nibble} {k : Byte} :
    w = (a ++ x ++ k : BitVec 16) ↔ opField w = a ∧ xField w = x ∧ kkField w = k := by
  constructor
  · rintro rfl
    simp
  · rintro ⟨rfl, rfl, rfl⟩
    apply BitVec.eq_of_toNat_eq
    rw [toNat_xkk, opField_toNat, xField_toNat, kkField_toNat]
    omega

theorem eq_xyn_iff {w : Word} {a x y n : Nibble} :
    w = (a ++ x ++ y ++ n : BitVec 16) ↔ opField w = a ∧ xField w = x ∧ yField w = y ∧ nField w = n := by
  constructor
  · rintro rfl
    simp
  · rintro ⟨rfl, rfl, rfl, rfl⟩
    exact word_eq_xyn w

theorem xkk_inj {a x a' x' : Nibble} {k k' : Byte} :
    (a ++ x ++ k : BitVec 16) = a' ++ x' ++ k' ↔ a = a' ∧ x = x' ∧ k = k' :=
  eq_xkk_iff.trans (by simp)

theorem xyn_inj {a x y n a' x' y' n' : Nibble} :
    (a ++ x ++ y ++ n : BitVec 16) = a' ++ x' ++ y' ++ n' ↔ a = a' ∧ x = x' ∧ y = y' ∧ n = n' :=
  eq_xyn_iff.trans (by simp)

/-! The word under the masks of R80 and under the bits a row reads -/

@[simp] theorem opField_and (u v : Word) : opField (u &&& v) = opField u &&& opField v := BitVec.extractLsb'_and

@[simp] theorem xField_and (u v : Word) : xField (u &&& v) = xField u &&& xField v := BitVec.extractLsb'_and

@[simp] theorem yField_and (u v : Word) : yField (u &&& v) = yField u &&& yField v := BitVec.extractLsb'_and

@[simp] theorem nField_and (u v : Word) : nField (u &&& v) = nField u &&& nField v := BitVec.extractLsb'_and

@[simp] theorem kkField_and (u v : Word) : kkField (u &&& v) = kkField u &&& kkField v := BitVec.extractLsb'_and

theorem and_xyn (w : Word) (a x y n : Nibble) :
    w &&& (a ++ x ++ y ++ n : BitVec 16) =
      (opField w &&& a) ++ (xField w &&& x) ++ (yField w &&& y) ++ (nField w &&& n) :=
  eq_xyn_iff.2 (by simp)

theorem and_xkk (w : Word) (a x : Nibble) (k : Byte) :
    w &&& (a ++ x ++ k : BitVec 16) = (opField w &&& a) ++ (xField w &&& x) ++ (kkField w &&& k) :=
  eq_xkk_iff.2 (by simp)

theorem nibble_and_ones (a : Nibble) : a &&& 0xF#4 = a := BitVec.and_allOnes

theorem byte_and_ones (k : Byte) : k &&& 0xFF#8 = k := BitVec.and_allOnes

theorem and_F000 (w : Word) : w &&& 0xF000#16 = opField w ++ 0#4 ++ 0#4 ++ 0#4 :=
  (and_xyn w 0xF 0x0 0x0 0x0).trans (by simp [nibble_and_ones])

theorem and_F00F (w : Word) : w &&& 0xF00F#16 = opField w ++ 0#4 ++ 0#4 ++ nField w :=
  (and_xyn w 0xF 0x0 0x0 0xF).trans (by simp [nibble_and_ones])

theorem and_F0FF (w : Word) : w &&& 0xF0FF#16 = opField w ++ 0#4 ++ kkField w :=
  (and_xkk w 0xF 0x0 0xFF).trans (by simp [nibble_and_ones, byte_and_ones])

theorem and_F000_eq_iff {u v : Word} : u &&& 0xF000#16 = v &&& 0xF000#16 ↔ opField u = opField v := by
  rw [and_F000, and_F000, xyn_inj]
  simp

theorem and_F00F_eq_iff {u v : Word} :
    u &&& 0xF00F#16 = v &&& 0xF00F#16 ↔ opField u = opField v ∧ nField u = nField v := by
  rw [and_F00F, and_F00F, xyn_inj]
  simp

theorem and_F0FF_eq_iff {u v : Word} :
    u &&& 0xF0FF#16 = v &&& 0xF0FF#16 ↔ opField u = opField v ∧ kkField u = kkField v := by
  rw [and_F0FF, and_F0FF, xkk_inj]
  simp

theorem and_FFF0 (w : Word) : w &&& 0xFFF0#16 = opField w ++ xField w ++ yField w ++ 0#4 :=
  (and_xyn w 0xF 0xF 0xF 0x0).trans (by simp [nibble_and_ones])

theorem and_FF0F (w : Word) : w &&& 0xFF0F#16 = opField w ++ xField w ++ 0#4 ++ nField w :=
  (and_xyn w 0xF 0xF 0x0 0xF).trans (by simp [nibble_and_ones])

theorem and_FFFF (w : Word) : w &&& 0xFFFF#16 = w := BitVec.and_allOnes

/-! What the decoder answers, by the word's fields (R73 to R80) -/

/-- The fields of the word are those the instruction's row spells: its `op`, its key and its operands (R71, R80). -/
def Instr.Reads (w : Word) : Instr → Prop
  | .cls => opField w = 0x0 ∧ nField w = 0x0
  | .ret => opField w = 0x0 ∧ nField w = 0xE
  | .jp nnn => opField w = 0x1 ∧ nnnField w = nnn
  | .call nnn => opField w = 0x2 ∧ nnnField w = nnn
  | .seKk x kk => opField w = 0x3 ∧ xField w = x ∧ kkField w = kk
  | .sneKk x kk => opField w = 0x4 ∧ xField w = x ∧ kkField w = kk
  | .seVy x y => opField w = 0x5 ∧ xField w = x ∧ yField w = y
  | .ldKk x kk => opField w = 0x6 ∧ xField w = x ∧ kkField w = kk
  | .addKk x kk => opField w = 0x7 ∧ xField w = x ∧ kkField w = kk
  | .ldVy x y => opField w = 0x8 ∧ xField w = x ∧ yField w = y ∧ nField w = 0x0
  | .orVy x y => opField w = 0x8 ∧ xField w = x ∧ yField w = y ∧ nField w = 0x1
  | .andVy x y => opField w = 0x8 ∧ xField w = x ∧ yField w = y ∧ nField w = 0x2
  | .xorVy x y => opField w = 0x8 ∧ xField w = x ∧ yField w = y ∧ nField w = 0x3
  | .addVy x y => opField w = 0x8 ∧ xField w = x ∧ yField w = y ∧ nField w = 0x4
  | .subVy x y => opField w = 0x8 ∧ xField w = x ∧ yField w = y ∧ nField w = 0x5
  | .shr x => opField w = 0x8 ∧ xField w = x ∧ nField w = 0x6
  | .subnVy x y => opField w = 0x8 ∧ xField w = x ∧ yField w = y ∧ nField w = 0x7
  | .shl x => opField w = 0x8 ∧ xField w = x ∧ nField w = 0xE
  | .sneVy x y => opField w = 0x9 ∧ xField w = x ∧ yField w = y
  | .ldI nnn => opField w = 0xA ∧ nnnField w = nnn
  | .jpV0 nnn => opField w = 0xB ∧ nnnField w = nnn
  | .rnd x kk => opField w = 0xC ∧ xField w = x ∧ kkField w = kk
  | .drw x y n => opField w = 0xD ∧ xField w = x ∧ yField w = y ∧ nField w = n
  | .skp x => opField w = 0xE ∧ xField w = x ∧ nField w = 0xE
  | .sknp x => opField w = 0xE ∧ xField w = x ∧ nField w = 0x1
  | .ldVxDT x => opField w = 0xF ∧ xField w = x ∧ kkField w = 0x07
  | .ldVxK x => opField w = 0xF ∧ xField w = x ∧ kkField w = 0x0A
  | .ldDTVx x => opField w = 0xF ∧ xField w = x ∧ kkField w = 0x15
  | .ldSTVx x => opField w = 0xF ∧ xField w = x ∧ kkField w = 0x18
  | .addI x => opField w = 0xF ∧ xField w = x ∧ kkField w = 0x1E
  | .ldF x => opField w = 0xF ∧ xField w = x ∧ kkField w = 0x29
  | .ldB x => opField w = 0xF ∧ xField w = x ∧ kkField w = 0x33
  | .storeRegs x => opField w = 0xF ∧ xField w = x ∧ kkField w = 0x55
  | .loadRegs x => opField w = 0xF ∧ xField w = x ∧ kkField w = 0x65

/-- The word's family has a second key, and no row of it has the word's (R79, R82). -/
def Unmapped (w : Word) : Prop :=
  (opField w = 0x0 ∧ nField w ∉ [0x0, 0xE]) ∨
  (opField w = 0x8 ∧ nField w ∉ [0x0, 0x1, 0x2, 0x3, 0x4, 0x5, 0x6, 0x7, 0xE]) ∨
  (opField w = 0xE ∧ nField w ∉ [0x1, 0xE]) ∨
  (opField w = 0xF ∧ kkField w ∉ [0x07, 0x0A, 0x15, 0x18, 0x1E, 0x29, 0x33, 0x55, 0x65])

/-- The answer is the right one for the word. -/
def Decoded.Fits (w : Word) : Decoded → Prop
  | .instr i => i.Reads w
  | .miss _ => Unmapped w

theorem decodeFamily0_fits {w : Word} (hop : opField w = 0x0) : (decodeFamily0 w).Fits w := by
  unfold decodeFamily0
  split_ifs <;> simp_all [Decoded.Fits, Instr.Reads, Unmapped]

theorem decodeFamily8_fits {w : Word} (hop : opField w = 0x8) : (decodeFamily8 w).Fits w := by
  unfold decodeFamily8
  split_ifs <;> simp_all [Decoded.Fits, Instr.Reads, Unmapped]

theorem decodeFamilyE_fits {w : Word} (hop : opField w = 0xE) : (decodeFamilyE w).Fits w := by
  unfold decodeFamilyE
  split_ifs <;> simp_all [Decoded.Fits, Instr.Reads, Unmapped]

theorem decodeFamilyF_fits {w : Word} (hop : opField w = 0xF) : (decodeFamilyF w).Fits w := by
  unfold decodeFamilyF
  split_ifs <;> simp_all [Decoded.Fits, Instr.Reads, Unmapped]

/-- The four families with a second key, then the twelve of one row (R73). -/
theorem op_cases (a : Nibble) :
    a = 0x0 ∨ a = 0x8 ∨ a = 0xE ∨ a = 0xF ∨ a = 0x1 ∨ a = 0x2 ∨ a = 0x3 ∨ a = 0x4 ∨
    a = 0x5 ∨ a = 0x6 ∨ a = 0x7 ∨ a = 0x9 ∨ a = 0xA ∨ a = 0xB ∨ a = 0xC ∨ a = 0xD := by
  revert a
  decide

/-- The one walk through the two-level dispatch: its answer fits on every word. -/
theorem decode_fits (w : Word) : (decode w).Fits w := by
  unfold decode
  obtain hop | hop | hop | hop | hop | hop | hop | hop | hop | hop | hop | hop | hop | hop | hop | hop :=
    op_cases (opField w)
  all_goals simp only [hop, BitVec.reduceEq, reduceIte]
  · exact decodeFamily0_fits hop
  · exact decodeFamily8_fits hop
  · exact decodeFamilyE_fits hop
  · exact decodeFamilyF_fits hop
  all_goals simp [Decoded.Fits, Instr.Reads, hop]

/-- The converse: the fields of a row select it in the dispatch. -/
theorem decode_of_reads {w : Word} {i : Instr} (h : i.Reads w) : decode w = .instr i := by
  cases i with
  | cls | ret => simp_all [Instr.Reads, decode, decodeFamily0]
  | ldVy | orVy | andVy | xorVy | addVy | subVy | shr | subnVy | shl => simp_all [Instr.Reads, decode, decodeFamily8]
  | skp | sknp => simp_all [Instr.Reads, decode, decodeFamilyE]
  | ldVxDT | ldVxK | ldDTVx | ldSTVx | addI | ldF | ldB | storeRegs | loadRegs =>
    simp_all [Instr.Reads, decode, decodeFamilyF]
  | _ => simp_all [Instr.Reads, decode]

theorem decode_eq_instr_iff {w : Word} {i : Instr} : decode w = .instr i ↔ i.Reads w := by
  refine ⟨fun hd => ?_, decode_of_reads⟩
  have hfits := decode_fits w
  rwa [hd] at hfits

theorem not_reads_of_unmapped {w : Word} (h : Unmapped w) (i : Instr) : ¬ i.Reads w := by
  obtain ⟨hop, hkey⟩ | ⟨hop, hkey⟩ | ⟨hop, hkey⟩ | ⟨hop, hkey⟩ := h
  all_goals cases i <;> simp_all [Instr.Reads]

theorem exists_decode_eq_miss_iff {w : Word} : (∃ m, decode w = .miss m) ↔ Unmapped w := by
  have hfits := decode_fits w
  cases hd : decode w with
  | instr i =>
    rw [hd] at hfits
    exact iff_of_false (by simp) fun hu => not_reads_of_unmapped hu i hfits
  | miss m =>
    rw [hd] at hfits
    exact iff_of_true ⟨m, rfl⟩ hfits

/-- Settles O3: the unmapped keys of the four families, their fields written as quotients and remainders. -/
theorem decodeMissesAreExactlyTheUnmappedKeys : Obligations.DecodeMissesAreExactlyTheUnmappedKeys := by
  unfold Obligations.DecodeMissesAreExactlyTheUnmappedKeys
  intro w
  rw [exists_decode_eq_miss_iff]
  simp only [Unmapped, ← BitVec.toNat_inj, List.mem_cons, List.not_mem_nil, or_false, not_or,
    opField_toNat, nField_toNat, kkField_toNat, BitVec.ofNat_eq_ofNat, BitVec.toNat_ofNat]
  omega

/-! The canonical words (R85) -/

/-- A word's fields are the row's exactly if the word agrees with the canonical one on every bit the row reads. -/
theorem reads_iff_agrees {w : Word} {i : Instr} : i.Reads w ↔ w &&& usedBits i = encode i &&& usedBits i := by
  cases i with
  | cls => exact (and_F00F_eq_iff (v := encode .cls)).symm
  | ret => exact (and_F00F_eq_iff (v := encode .ret)).symm
  | seVy | sneVy => simp [Instr.Reads, usedBits, encode, encodeXyn, and_FFF0, xyn_inj]
  | shr | shl => simp [Instr.Reads, usedBits, encode, encodeXyn, and_FF0F, xyn_inj]
  | skp | sknp => simp [Instr.Reads, usedBits, encode, encodeXkk, and_FF0F, xyn_inj]
  | jp | call | ldI | jpV0 => simp [Instr.Reads, usedBits, encode, encodeNnn, and_FFFF, eq_nnn_iff]
  | ldVy | orVy | andVy | xorVy | addVy | subVy | subnVy | drw =>
    simp [Instr.Reads, usedBits, encode, encodeXyn, and_FFFF, eq_xyn_iff]
  | _ => simp [Instr.Reads, usedBits, encode, encodeXkk, and_FFFF, eq_xkk_iff]

theorem decode_encode (i : Instr) : decode (encode i) = .instr i := decode_of_reads (reads_iff_agrees.2 rfl)

/-- Decoding reads a word's two bytes and nothing after them (R70). -/
theorem decodeBytes_bytesOfWord (w : Word) (rest : List Byte) : decodeBytes (bytesOfWord w ++ rest) = decode w :=
  congrArg decode (bytes_append w)

/-- Settles O1: the canonical word agrees with itself on the bits its row reads, and the bytes make the word. -/
theorem encodedInstructionDecodesToItself : Obligations.EncodedInstructionDecodesToItself := by
  unfold Obligations.EncodedInstructionDecodesToItself
  intro i rest
  exact ⟨decode_encode i, (decodeBytes_bytesOfWord _ rest).trans (decode_encode i)⟩

/-- Settles O5: each of the words runs through the dispatch. -/
theorem sampleWordsDecodeAsTheSpecSpells : Obligations.SampleWordsDecodeAsTheSpecSpells := by
  unfold Obligations.SampleWordsDecodeAsTheSpecSpells
  decide

/-! The opcode map (R80) -/

theorem encode_and_mask (i : Instr) : encode i &&& (opcodeRow i).mask = (opcodeRow i).pattern := by
  cases i with
  | cls | ret => rfl
  | _ => simp [encode, opcodeRow, encodeNnn, encodeXkk, encodeXyn, and_F000, and_F00F, and_F0FF]

theorem usedBits_and_mask (i : Instr) : usedBits i &&& (opcodeRow i).mask = (opcodeRow i).mask := by
  cases i <;> simp only [usedBits, opcodeRow] <;> decide

theorem opcodeRow_selects_iff {w : Word} {i : Instr} :
    (opcodeRow i).selects w = true ↔ w &&& (opcodeRow i).mask = encode i &&& (opcodeRow i).mask := by
  rw [encode_and_mask, OpcodeRow.selects, beq_iff_eq]

/-- A row's mask is part of the bits it reads, so a word that agrees on those selects the row. -/
theorem opcodeRow_selects_of_reads {w : Word} {i : Instr} (h : i.Reads w) : (opcodeRow i).selects w = true := by
  rw [reads_iff_agrees] at h
  rw [opcodeRow_selects_iff]
  calc w &&& (opcodeRow i).mask
      = (w &&& usedBits i) &&& (opcodeRow i).mask := by rw [BitVec.and_assoc, usedBits_and_mask]
    _ = (encode i &&& usedBits i) &&& (opcodeRow i).mask := by rw [h]
    _ = encode i &&& (opcodeRow i).mask := by rw [BitVec.and_assoc, usedBits_and_mask]

/-- A word that selects a row decodes to an instruction of that row, with the operands the word holds. -/
theorem exists_decode_of_selects {w : Word} {i : Instr} (h : (opcodeRow i).selects w = true) :
    ∃ j, opcodeRow j = opcodeRow i ∧ decode w = .instr j := by
  rw [opcodeRow_selects_iff] at h
  cases i with
  | cls | ret => exact ⟨_, rfl, decode_of_reads (reads_iff_agrees.2 h)⟩
  | ldVxDT | ldVxK | ldDTVx | ldSTVx | addI | ldF | ldB | storeRegs | loadRegs =>
    obtain ⟨hop, hkey⟩ := and_F0FF_eq_iff.1 h
    simp [decode, decodeFamilyF, hop, hkey, encode, encodeXkk, opcodeRow]
  | ldVy | orVy | andVy | xorVy | addVy | subVy | shr | subnVy | shl | skp | sknp =>
    obtain ⟨hop, hkey⟩ := and_F00F_eq_iff.1 h
    simp [decode, decodeFamily8, decodeFamilyE, hop, hkey, encode, encodeXkk, encodeXyn, opcodeRow]
  | _ =>
    have hop := and_F000_eq_iff.1 h
    simp [decode, hop, encode, encodeNnn, encodeXkk, encodeXyn, opcodeRow]

theorem opcodeRow_mem_opcodeMap (i : Instr) : opcodeRow i ∈ opcodeMap := by
  cases i <;> simp [opcodeRow, opcodeMap]

/-- The map's rows are the rows of the instructions, in the order of R80. -/
theorem opcodeMap_eq_map_opcodeRow :
    opcodeMap =
      ([.cls, .ret, .jp 0, .call 0, .seKk 0 0, .sneKk 0 0, .seVy 0 0, .ldKk 0 0, .addKk 0 0, .ldVy 0 0, .orVy 0 0,
        .andVy 0 0, .xorVy 0 0, .addVy 0 0, .subVy 0 0, .shr 0, .subnVy 0 0, .shl 0, .sneVy 0 0, .ldI 0, .jpV0 0,
        .rnd 0 0, .drw 0 0 0, .skp 0, .sknp 0, .ldVxDT 0, .ldVxK 0, .ldDTVx 0, .ldSTVx 0, .addI 0, .ldF 0, .ldB 0,
        .storeRegs 0, .loadRegs 0] : List Instr).map opcodeRow := rfl

theorem exists_decode_of_mem_opcodeMap {w : Word} {r : OpcodeRow} (hr : r ∈ opcodeMap) (h : r.selects w = true) :
    ∃ j, opcodeRow j = r ∧ decode w = .instr j := by
  rw [opcodeMap_eq_map_opcodeRow] at hr
  obtain ⟨i, -, rfl⟩ := List.mem_map.1 hr
  exact exists_decode_of_selects h

/-- Settles O2: every selected row of the map is the row of what the word decodes to, and there is one answer only. -/
theorem decodedInstructionIsTheRowTheOpcodeMapSelects : Obligations.DecodedInstructionIsTheRowTheOpcodeMapSelects := by
  unfold Obligations.DecodedInstructionIsTheRowTheOpcodeMapSelects
  intro w
  constructor
  · intro i hd
    have hreads : i.Reads w := decode_eq_instr_iff.1 hd
    refine ⟨opcodeRow_mem_opcodeMap i, opcodeRow_selects_of_reads hreads, fun r hr hsel => ?_, reads_iff_agrees.1 hreads⟩
    obtain ⟨j, rfl, hj⟩ := exists_decode_of_mem_opcodeMap hr hsel
    rw [Decoded.instr.inj (hj.symm.trans hd)]
  · intro m hd r hr
    refine Bool.eq_false_iff.2 fun hsel => ?_
    obtain ⟨j, -, hj⟩ := exists_decode_of_mem_opcodeMap hr hsel
    cases hj.symm.trans hd

end Sys2Proof

namespace Sys2Proof.Machine

/-! The assembler lines (R84) -/

@[simp] theorem asAddr_toNat (a : Addr) : asAddr a.toNat = some a := by
  rw [asAddr, if_pos (Laws.wellFormed_addr a), BitVec.ofNat_toNat, BitVec.setWidth_eq]

@[simp] theorem asByte_toNat (k : Byte) : asByte k.toNat = some k := by
  rw [asByte, if_pos (Laws.wellFormed_byte k), BitVec.ofNat_toNat, BitVec.setWidth_eq]

@[simp] theorem asNibble_toNat (n : Nibble) : asNibble n.toNat = some n := by
  rw [asNibble, if_pos (Laws.wellFormed_nibble n), BitVec.ofNat_toNat, BitVec.setWidth_eq]

/-- The spelled operands are in range and no other row has the line's shape, so it is read back. -/
theorem asmInstr_asmOf (i : Instr) : asmInstr (asmOf i).1 (asmOf i).2 = some i := by
  cases i <;> simp [asmOf, asmInstr, asmLd]

/-- With no label placed an operand stays what it is. -/
theorem AsmOperand.resolve_nil (o : AsmOperand) : o.resolve [] = o := by
  cases o <;> rfl

/-- A program of one instruction line is the bytes of its canonical word (R85). -/
theorem assemble_op (m : Mnemonic) (os : List AsmOperand) :
    assemble [.op m os] = (asmInstr m os).map fun i => bytesOfWord (encode i) := by
  have hresolve : os.map (AsmOperand.resolve []) = os :=
    (List.map_congr_left fun o _ => o.resolve_nil).trans (List.map_id' os)
  simp only [assemble, labelTable, List.map_nil, List.nodup_nil, if_true, asmLines, asmLine, hresolve]
  cases asmInstr m os <;> simp

/-- Settles O60: the line is read back, and its one word is the canonical one. -/
theorem spelledInstructionAssemblesToItsCanonicalWord : Obligations.SpelledInstructionAssemblesToItsCanonicalWord := by
  unfold Obligations.SpelledInstructionAssemblesToItsCanonicalWord
  intro i
  refine ⟨asmInstr_asmOf i, ?_⟩
  rw [assemble_op, asmInstr_asmOf, Option.map_some]

/-! A miss's cycle (R79) -/

theorem countdown_eq_ofNat (t : Byte) : countdown t = BitVec.ofNat 8 (t.toNat - 1) := by
  apply BitVec.eq_of_toNat_eq
  rw [countdown_toNat, BitVec.toNat_ofNat]
  omega

/-- The cycle of a running core whose fetched word is a miss: the advance and the cycle's end only. -/
theorem cycle_of_miss {b : Byte} {s : State} {w : Word} {m : Miss} (hrun : s.fault = none)
    (hfetch : fetch s.mem s.pc = .ok w) (hd : decode w = .miss m) :
    cycle b s = .next ((s.latch w b).setPc (s.pc + 2)).endCycle := by
  simp only [cycle, hrun, hfetch, executeWord, hd, execMiss, finishCycle, State.advancePc_eq, State.latch_pc]

/-- Settles O9: a miss executes nothing, so the step is the advance and the countdown. -/
theorem decodeMissIsANoOpOfOneCycle : Obligations.DecodeMissIsANoOpOfOneCycle := by
  unfold Obligations.DecodeMissIsANoOpOfOneCycle
  constructor
  · intro s w m hrun hfetch hd
    have hrun' : ((s.latch w (Config.rnd s.draw)).setPc (s.pc + 2)).fault = none := hrun
    rw [step, cycle_of_miss hrun hfetch hd, State.endCycle_of_running hrun', ← countdown_eq_ofNat, ← countdown_eq_ofNat]
    rfl
  · intro w
    cases decode w with
    | instr i => exact .inl ⟨i, rfl⟩
    | miss m => exact .inr ⟨m, rfl⟩

end Sys2Proof.Machine

/-! PROOFS of the family 40_cycle.md: the fetch and its range check (R101), the decoded instruction a step runs (R100,
R102, R103), and the countdown at the cycle's end (R104). -/

namespace Sys2Proof.Machine

/-! The fetch (R101) -/

theorem fetch_of_lt {a : Word} (m : Memory) (h : a.toNat + 1 < 4096) :
    fetch m a = .ok (m.read a.toNat ++ m.read (a.toNat + 1)) := by
  rw [fetch_eq, if_pos h]

theorem fetch_of_le {a : Word} (m : Memory) (h : 4096 ≤ a.toNat + 1) :
    fetch m a = .error ⟨.fetchOutOfRange, BitVec.ofNat 17 a.toNat⟩ := by
  rw [fetch_eq, if_neg (Nat.not_lt.2 h)]

/-- Settles O7: the check on a + 1 decides, the info field holds any 16-bit address, and the high byte comes first. -/
theorem fetchIsBigEndianAndRangeChecked : Obligations.FetchIsBigEndianAndRangeChecked := by
  unfold Obligations.FetchIsBigEndianAndRangeChecked
  intro m a
  constructor
  · intro hout
    have hinfo : (BitVec.ofNat 17 a.toNat).toNat = a.toNat := by
      rw [BitVec.toNat_ofNat]
      omega
    exact ⟨_, fetch_of_le m hout, rfl, hinfo⟩
  · intro hin
    exact ⟨_, fetch_of_lt m hin, toNat_wordOfBytes ..⟩

/-- Settles O8: no word can be fetched there, so of all a running core's cycle can do the fetch fault is left. -/
theorem fetchOutsideMemoryStopsTheCore : Obligations.FetchOutsideMemoryStopsTheCore := by
  unfold Obligations.FetchOutsideMemoryStopsTheCore
  intro s hrun hpc
  have hfetch : ∀ w, fetch s.mem s.pc ≠ .ok w := by
    intro w hw
    rw [fetch_of_le s.mem (Nat.succ_le_succ hpc)] at hw
    cases hw
  obtain ⟨hfault, -⟩ | ⟨-, -, hc⟩ | ⟨-, w, -, hw, -⟩ | ⟨-, w, -, hw, -⟩ := cycle_cases (Config.rnd s.draw) s
  · exact absurd hrun hfault
  · exact hc
  · exact absurd hw (hfetch w)
  · exact absurd hw (hfetch w)

/-! The execute step of a fetched word (R102, R103) -/

/-- The cycle of a running core that fetched a word: Execute after the advance, then the cycle's end. -/
theorem cycle_of_fetch {b : Byte} {s : State} {w : Word} (hrun : s.fault = none) (hfetch : fetch s.mem s.pc = .ok w) :
    cycle b s = finishCycle (executeWord w ((s.latch w b).setPc (s.pc + 2))) := by
  simp only [cycle, hrun, hfetch, State.advancePc_eq, State.latch_pc]

theorem executeWord_of_instr {w : Word} {i : Instr} (s : State) (hd : decode w = .instr i) :
    executeWord w s = exec i s := by
  rw [executeWord, hd]

theorem executeWord_of_miss {w : Word} {m : Miss} (s : State) (hd : decode w = .miss m) :
    executeWord w s = .next s := by
  rw [executeWord, hd]
  rfl

/-- Everything Execute of a word can answer: the same state for a miss (R79), or what its instruction's meaning answers. -/
theorem executeWord_next {w : Word} {s t : State} (h : executeWord w s = .next t) :
    t = s ∨ ∃ i, decode w = .instr i ∧ exec i s = .next t := by
  cases hd : decode w with
  | miss m => exact .inl (Host.Outcome.next.inj ((executeWord_of_miss s hd).symm.trans h)).symm
  | instr i => exact .inr ⟨i, rfl, (executeWord_of_instr s hd).symm.trans h⟩

/-- Settles O6: the two bytes are the fetched word, which decodes to the instruction, and the cycle's end follows Execute. -/
theorem stepRunsTheDecodedInstruction : Obligations.StepRunsTheDecodedInstruction := by
  unfold Obligations.StepRunsTheDecodedInstruction
  intro s i hrun hpc hd
  rw [step, cycle_of_fetch hrun (fetch_of_lt s.mem hpc), executeWord_of_instr _ hd]
  rfl

/-! The timers (R104): Execute writes DT only in Fx15 and ST only in Fx18, and the cycle's end counts both down. -/

theorem touches_delay {i : Instr} (s : State) (hi : ∀ x, i ≠ .ldDTVx x) : (touches i s).delay = false := by
  cases i with
  | ldDTVx x => exact absurd rfl (hi x)
  | _ => rfl

theorem touches_sound {i : Instr} (s : State) (hi : ∀ x, i ≠ .ldSTVx x) : (touches i s).sound = false := by
  cases i with
  | ldSTVx x => exact absurd rfl (hi x)
  | _ => rfl

theorem Frame.DT_eq {w : Touch} {s t : State} (h : Frame w s t) (hw : w.delay = false) : t.DT = s.DT := by
  obtain ⟨-, -, -, -, -, -, hDT, -⟩ := h
  exact hDT hw

theorem Frame.ST_eq {w : Touch} {s t : State} (h : Frame w s t) (hw : w.sound = false) : t.ST = s.ST := by
  obtain ⟨-, -, -, -, -, -, -, hST, -⟩ := h
  exact hST hw

/-- Execute of an instruction other than Fx15 keeps DT, by its frame or because a taken fault writes no timer. -/
theorem exec_DT {i : Instr} {s t : State} (h : exec i s = .next t) (hi : ∀ x, i ≠ .ldDTVx x) : t.DT = s.DT := by
  obtain hframe | ⟨r, rfl⟩ := exec_frame_or_fault h
  · exact hframe.DT_eq (touches_delay s hi)
  · rfl

/-- Execute of an instruction other than Fx18 keeps ST. -/
theorem exec_ST {i : Instr} {s t : State} (h : exec i s = .next t) (hi : ∀ x, i ≠ .ldSTVx x) : t.ST = s.ST := by
  obtain hframe | ⟨r, rfl⟩ := exec_frame_or_fault h
  · exact hframe.ST_eq (touches_sound s hi)
  · rfl

/-- The same of a fetched word, miss or instruction. -/
theorem executeWord_DT {w : Word} {s t : State} (h : executeWord w s = .next t)
    (hw : ∀ x, decode w ≠ .instr (.ldDTVx x)) : t.DT = s.DT := by
  obtain rfl | ⟨i, hd, hexec⟩ := executeWord_next h
  · rfl
  · exact exec_DT hexec fun x hi => hw x (hi ▸ hd)

theorem executeWord_ST {w : Word} {s t : State} (h : executeWord w s = .next t)
    (hw : ∀ x, decode w ≠ .instr (.ldSTVx x)) : t.ST = s.ST := by
  obtain rfl | ⟨i, hd, hexec⟩ := executeWord_next h
  · rfl
  · exact exec_ST hexec fun x hi => hw x (hi ▸ hd)

/-- Fx15 (R182). -/
theorem executeWord_ldDTVx {w : Word} {x : RegIx} (s : State) (hd : decode w = .instr (.ldDTVx x)) :
    executeWord w s = .next (s.setDT (s.reg x)) := executeWord_of_instr s hd

/-- Fx18 (R183). -/
theorem executeWord_ldSTVx {w : Word} {x : RegIx} (s : State) (hd : decode w = .instr (.ldSTVx x)) :
    executeWord w s = .next (s.setST (s.reg x)) := executeWord_of_instr s hd

theorem State.endCycle_DT_toNat {s : State} (h : s.fault = none) : s.endCycle.DT.toNat = s.DT.toNat - 1 := by
  rw [State.endCycle_of_running h]
  exact countdown_toNat s.DT

theorem State.endCycle_ST_toNat {s : State} (h : s.fault = none) : s.endCycle.ST.toNat = s.ST.toNat - 1 := by
  rw [State.endCycle_of_running h]
  exact countdown_toNat s.ST

/-- A step that answers a next state is Execute, from the latched state after the advance, and then the cycle's end. -/
theorem step_next_of_fetch {s t : State} {w : Word} (hrun : s.fault = none) (hfetch : fetch s.mem s.pc = .ok w)
    (h : step s = .next t) :
    ∃ u, executeWord w ((s.latch w (Config.rnd s.draw)).setPc (s.pc + 2)) = .next u ∧ t = u.endCycle := by
  rw [step, cycle_of_fetch hrun hfetch] at h
  exact finishCycle_next h

/-- Settles O14: Execute leaves each timer as it was or writes V[x], and the cycle's end, which did not fault, takes 1. -/
theorem completedCycleCountsBothTimersDown : Obligations.CompletedCycleCountsBothTimersDown := by
  unfold Obligations.CompletedCycleCountsBothTimersDown
  intro s t w hrun hfetch hstep ht
  obtain ⟨u, hexec, rfl⟩ := step_next_of_fetch hrun hfetch hstep
  have hu : u.fault = none := (State.endCycle_fault u).symm.trans ht
  rw [State.endCycle_DT_toNat hu, State.endCycle_ST_toNat hu]
  refine ⟨fun hw => ?_, fun x hd => ?_, fun hw => ?_, fun x hd => ?_⟩
  · rw [executeWord_DT hexec hw]
    rfl
  · rw [executeWord_ldDTVx _ hd] at hexec
    rw [← Host.Outcome.next.inj hexec]
    rfl
  · rw [executeWord_ST hexec hw]
    rfl
  · rw [executeWord_ldSTVx _ hd] at hexec
    rw [← Host.Outcome.next.inj hexec]
    rfl

end Sys2Proof.Machine

/-! PROOFS of the family 41_arithmetic.md: the twelve arithmetic and logic instructions write V[x] alone, or the flag and
then V[x] (R120 to R132). -/

namespace Sys2Proof.Machine

/-! What a write of V[x], and a write of VF before it, leave behind (R21, R24, R120) -/

/-- Reading an operand after the flag was written (R9, R120). -/
theorem State.reg_setFlag (s : State) (f : Byte) (r : RegIx) :
    (s.setFlag f).reg r = if r = 0xF then f else s.reg r := State.reg_setReg s flagReg r f

/-- An instruction that writes V[x] and no flag completes, and nothing else changes. -/
theorem exists_next_of_setReg {e : Result} {s : State} {x : RegIx} {v : Byte} (he : e = .next (s.setReg x v)) :
    ∃ t, e = .next t ∧ t.reg x = v ∧ Frame { regs := [x] } s t :=
  ⟨s.setReg x v, he, State.reg_setReg_self s x v, (Frame.refl _ s).setReg (.head _)⟩

/-- An instruction that writes the flag and then V[x] completes: V[x] takes the result, VF the flag unless x is F, where
the result comes last (R120), and nothing else changes. -/
theorem exists_next_of_setFlag_setReg {e : Result} {s : State} {x : RegIx} {f v : Byte}
    (he : e = .next ((s.setFlag f).setReg x v)) :
    ∃ t, e = .next t ∧ t.reg x = v ∧ (x ≠ 0xF → t.reg 0xF = f) ∧ Frame { regs := [x, 0xF] } s t := by
  refine ⟨(s.setFlag f).setReg x v, he, State.reg_setReg_self _ x v, fun hx => ?_, ?_⟩
  · rw [State.reg_setReg_ne _ v hx.symm]
    exact State.reg_setReg_self s flagReg f
  · exact ((Frame.refl _ s).setReg (x := flagReg) (.tail _ (.head _))).setReg (.head _)

/-! The flags and results as numbers (R127 to R131) -/

theorem carryFlag_eq (a b : Byte) : carryFlag a b = if 255 < a.toNat + b.toNat then 1 else 0 := by
  simp [carryFlag, flagOf]

theorem greaterFlag_eq (a b : Byte) : greaterFlag a b = if b.toNat < a.toNat then 1 else 0 := by
  simp [greaterFlag, flagOf]

theorem lowBitFlag_toNat (a : Byte) : (lowBitFlag a).toNat = a.toNat % 2 :=
  (BitVec.toNat_and ..).trans (Nat.and_one_is_mod _)

theorem highBitFlag_toNat (a : Byte) : (highBitFlag a).toNat = a.toNat / 128 := by
  rw [highBitFlag, BitVec.toNat_ushiftRight, Nat.shiftRight_eq_div_pow]

theorem byte_sub_toNat (a b : Byte) : (a - b).toNat = (a.toNat + 256 - b.toNat) % 256 := by
  rw [BitVec.toNat_sub]
  omega

theorem byte_half_toNat (a : Byte) : (a >>> 1).toNat = a.toNat / 2 := by
  rw [BitVec.toNat_ushiftRight, Nat.shiftRight_eq_div_pow, Nat.pow_one]

theorem byte_double_toNat (a : Byte) : (a <<< 1).toNat = a.toNat * 2 % 256 := by
  rw [BitVec.toNat_shiftLeft, Nat.shiftLeft_eq]

/-! The instructions with an immediate, the moves and the logic (R121 to R126) -/

/-- Settles O27: the one write is of kk to V[x]. -/
theorem loadImmediateWritesKk : Obligations.LoadImmediateWritesKk := by
  unfold Obligations.LoadImmediateWritesKk
  intro x kk s
  exact ⟨decode_encode (.ldKk x kk), exists_next_of_setReg rfl⟩

/-- Settles O28: the one write is of the byte sum to V[x], which is the sum mod 256. -/
theorem addImmediateWrapsWithoutFlag : Obligations.AddImmediateWrapsWithoutFlag := by
  unfold Obligations.AddImmediateWrapsWithoutFlag
  intro x kk s
  obtain ⟨t, hexec, hx, hframe⟩ := exists_next_of_setReg (e := exec (.addKk x kk) s) rfl
  refine ⟨decode_encode (.addKk x kk), t, hexec, ?_, hframe⟩
  rw [hx, BitVec.toNat_add]

/-- Settles O29: each of the four makes one write, of V[y] or the bitwise result, to V[x]. -/
theorem registerMovesAndLogicLeaveTheFlag : Obligations.RegisterMovesAndLogicLeaveTheFlag := by
  unfold Obligations.RegisterMovesAndLogicLeaveTheFlag
  intro x y s
  exact ⟨⟨decode_encode (.ldVy x y), exists_next_of_setReg rfl⟩, ⟨decode_encode (.orVy x y), exists_next_of_setReg rfl⟩,
    ⟨decode_encode (.andVy x y), exists_next_of_setReg rfl⟩, ⟨decode_encode (.xorVy x y), exists_next_of_setReg rfl⟩⟩

/-! The sum and the differences with their flags (R127, R128, R130) -/

/-- Settles O30: the flag and the sum are both of the old values, and the sum is written last. -/
theorem addWithCarrySetsTheCarryOfTheOldValues : Obligations.AddWithCarrySetsTheCarryOfTheOldValues := by
  unfold Obligations.AddWithCarrySetsTheCarryOfTheOldValues
  intro x y s
  obtain ⟨t, hexec, hx, hflag, hframe⟩ := exists_next_of_setFlag_setReg (e := exec (.addVy x y) s) rfl
  refine ⟨decode_encode (.addVy x y), t, hexec, ?_, ?_, hframe⟩
  · rw [hx, BitVec.toNat_add]
  · rwa [carryFlag_eq] at hflag

/-- What 8xy5 and 8xy7 share: the flag of `V[p] > V[q]`, then `V[p] - V[q]` of the registers as just updated to V[x]. -/
def State.subtractInto (s : State) (x p q : RegIx) : State :=
  let t := s.setFlag (greaterFlag (s.reg p) (s.reg q))
  t.setReg x (t.reg p - t.reg q)

theorem exec_subVy (x y : RegIx) (s : State) : exec (.subVy x y) s = .next (s.subtractInto x x y) := rfl

theorem exec_subnVy (x y : RegIx) (s : State) : exec (.subnVy x y) s = .next (s.subtractInto x y x) := rfl

/-- The difference reads its operands after the flag's write, so an operand that is VF is the flag (R128, R130). -/
theorem exists_next_of_subtractInto {e : Result} {s : State} {x p q : RegIx} {f a b : Byte}
    (he : e = .next (s.subtractInto x p q)) (hf : f = if (s.reg q).toNat < (s.reg p).toNat then 1 else 0)
    (ha : a = if p = 0xF then f else s.reg p) (hb : b = if q = 0xF then f else s.reg q) :
    ∃ t, e = .next t ∧ (t.reg x).toNat = (a.toNat + 256 - b.toNat) % 256 ∧ (x ≠ 0xF → t.reg 0xF = f) ∧
      Frame { regs := [x, 0xF] } s t := by
  obtain ⟨t, hexec, hx, hflag, hframe⟩ := exists_next_of_setFlag_setReg he
  rw [greaterFlag_eq, ← hf] at hx hflag
  rw [State.reg_setFlag, State.reg_setFlag, ← ha, ← hb] at hx
  refine ⟨t, hexec, ?_, hflag, hframe⟩
  rw [hx, byte_sub_toNat]

/-- Settles O31: V[x] is the minuend and V[y] the subtrahend. -/
theorem subtractReadsOperandsAfterTheFlag : Obligations.SubtractReadsOperandsAfterTheFlag := by
  unfold Obligations.SubtractReadsOperandsAfterTheFlag
  intro x y s f a b hf ha hb
  exact ⟨decode_encode (.subVy x y), exists_next_of_subtractInto (exec_subVy x y s) hf ha hb⟩

/-- Settles O32: the roles exchanged, V[y] is the minuend and V[x] the subtrahend. -/
theorem reverseSubtractReadsOperandsAfterTheFlag : Obligations.ReverseSubtractReadsOperandsAfterTheFlag := by
  unfold Obligations.ReverseSubtractReadsOperandsAfterTheFlag
  intro x y s f a b hf ha hb
  exact ⟨decode_encode (.subnVy x y), exists_next_of_subtractInto (exec_subnVy x y s) hf hb ha⟩

/-! The shifts (R129, R131) -/

/-- 8xy6: V[x] halved where x is not F; where it is, the flag is halved, and 0 or 1 halved is 0 (R129). -/
theorem exec_shr (x : RegIx) (s : State) :
    ∃ t, exec (.shr x) s = .next t ∧
      (x ≠ 0xF → (t.reg x).toNat = (s.reg x).toNat / 2 ∧ (t.reg 0xF).toNat = (s.reg x).toNat % 2) ∧
      (x = 0xF → t.reg 0xF = 0) ∧ Frame { regs := [x, 0xF] } s t := by
  obtain ⟨t, hexec, hx, hflag, hframe⟩ := exists_next_of_setFlag_setReg (e := exec (.shr x) s) rfl
  rw [State.reg_setFlag] at hx
  refine ⟨t, hexec, fun hne => ?_, fun heq => ?_, hframe⟩
  · rw [hx, hflag hne, if_neg hne, byte_half_toNat, lowBitFlag_toNat]
    exact ⟨rfl, rfl⟩
  · rw [if_pos heq, heq] at hx
    apply BitVec.eq_of_toNat_eq
    rw [hx, byte_half_toNat, lowBitFlag_toNat]
    exact Nat.div_eq_of_lt (Nat.mod_lt _ Nat.two_pos)

/-- 8xyE: V[x] doubled mod 256 where x is not F; where it is, the flag is doubled, and 0 or 1 doubled does not wrap (R131). -/
theorem exec_shl (x : RegIx) (s : State) :
    ∃ t, exec (.shl x) s = .next t ∧
      (x ≠ 0xF → (t.reg x).toNat = (s.reg x).toNat * 2 % 256 ∧ (t.reg 0xF).toNat = (s.reg x).toNat / 128) ∧
      (x = 0xF → (t.reg 0xF).toNat = (s.reg 0xF).toNat / 128 * 2) ∧ Frame { regs := [x, 0xF] } s t := by
  obtain ⟨t, hexec, hx, hflag, hframe⟩ := exists_next_of_setFlag_setReg (e := exec (.shl x) s) rfl
  rw [State.reg_setFlag] at hx
  refine ⟨t, hexec, fun hne => ?_, fun heq => ?_, hframe⟩
  · rw [hx, hflag hne, if_neg hne, byte_double_toNat, highBitFlag_toNat]
    exact ⟨rfl, rfl⟩
  · rw [if_pos heq, heq] at hx
    rw [hx, byte_double_toNat, highBitFlag_toNat]
    omega

/-- Settles O33: a shift's row reads the word's op, x and n, whatever y is; then the two meanings. -/
theorem shiftsMoveOneBitIntoTheFlag : Obligations.ShiftsMoveOneBitIntoTheFlag := by
  unfold Obligations.ShiftsMoveOneBitIntoTheFlag
  intro x y s
  have hshr : (Instr.shr x).Reads (0x8#4 ++ x ++ y ++ 0x6#4) := ⟨opField_xyn .., xField_xyn .., nField_xyn ..⟩
  have hshl : (Instr.shl x).Reads (0x8#4 ++ x ++ y ++ 0xE#4) := ⟨opField_xyn .., xField_xyn .., nField_xyn ..⟩
  exact ⟨⟨decode_of_reads hshr, exec_shr x s⟩, decode_of_reads hshl, exec_shl x s⟩

/-! The random byte and the mask (R132) -/

/-- The cycle of a running core that fetched an instruction: its meaning after the advance, then the cycle's end. -/
theorem cycle_of_instr {b : Byte} {s : State} {w : Word} {i : Instr} (hrun : s.fault = none)
    (hfetch : fetch s.mem s.pc = .ok w) (hd : decode w = .instr i) :
    cycle b s = finishCycle (exec i ((s.latch w b).setPc (s.pc + 2))) := by
  rw [cycle_of_fetch hrun hfetch, executeWord_of_instr _ hd]

/-- Settles O34: the byte masked is the scratch byte, which in a whole cycle is the byte latched at its start, and the
cycle's end writes no register. -/
theorem randomAndMaskUsesTheCyclesDraw : Obligations.RandomAndMaskUsesTheCyclesDraw := by
  unfold Obligations.RandomAndMaskUsesTheCyclesDraw
  intro x kk s
  refine ⟨decode_encode (.rnd x kk), exists_next_of_setReg rfl, fun b w hrun hfetch hd => ?_⟩
  obtain ⟨u, hexec, hx, -⟩ :=
    exists_next_of_setReg (e := exec (.rnd x kk) ((s.latch w b).setPc (s.pc + 2))) rfl
  refine ⟨u.endCycle, ?_, ?_⟩
  · rw [cycle_of_instr hrun hfetch hd, hexec]
    rfl
  · rw [State.reg_endCycle, hx]
    rfl

end Sys2Proof.Machine

/-! PROOFS of the family 42_control_flow.md: the jumps and skips write the pc alone; the call pushes what the return pops,
and a full or an empty stack is a fault (R140 to R148). -/

namespace Sys2Proof.Machine

/-! The jumps (R142, R148) -/

theorem zextAddr_toNat (nnn : Addr) : (zextAddr nnn).toNat = nnn.toNat :=
  BitVec.toNat_setWidth_of_le (by decide)

theorem zextByte_toNat (v : Byte) : (zextByte v).toNat = v.toNat :=
  BitVec.toNat_setWidth_of_le (by decide)

/-- V0 is below 2^8 and nnn below 2^12, so their sum fits the pc. -/
theorem zextByte_add_zextAddr_toNat (v : Byte) (nnn : Addr) :
    (zextByte v + zextAddr nnn).toNat = v.toNat + nnn.toNat := by
  rw [BitVec.toNat_add, zextByte_toNat, zextAddr_toNat]
  omega

/-- An instruction that writes the pc alone completes, and nothing else changes. -/
theorem exists_next_of_setPc {e : Result} {s : State} {v : Word} (he : e = .next (s.setPc v)) :
    ∃ t, e = .next t ∧ t.pc = v ∧ Frame { pc := true } s t :=
  ⟨s.setPc v, he, State.setPc_pc s v, (Frame.refl _ s).setPc rfl⟩

/-- Settles O36: the one write is of nnn, zero-extended, to the pc. -/
theorem jumpSetsThePc : Obligations.JumpSetsThePc := by
  unfold Obligations.JumpSetsThePc
  intro nnn s
  obtain ⟨t, hexec, hpc, hframe⟩ := exists_next_of_setPc (e := exec (.jp nnn) s) rfl
  refine ⟨decode_encode (.jp nnn), t, hexec, ?_, hframe⟩
  rw [hpc, zextAddr_toNat]

/-- Settles O41: the one write is of the sum, which does not wrap, to the pc; the check is the next fetch's. -/
theorem jumpWithOffsetAddsV0 : Obligations.JumpWithOffsetAddsV0 := by
  unfold Obligations.JumpWithOffsetAddsV0
  intro nnn s
  obtain ⟨t, hexec, hpc, hframe⟩ := exists_next_of_setPc (e := exec (.jpV0 nnn) s) rfl
  refine ⟨decode_encode (.jpV0 nnn), t, hexec, ?_, hframe, fun hout => fetch_of_le t.mem (Nat.succ_le_succ hout)⟩
  rw [hpc, zextByte_add_zextAddr_toNat]

/-! The skips (R140, R144 to R147) -/

/-- A skip on equality completes, with the pc 2 further where the two bytes are equal. -/
theorem exists_next_of_skipIf_eq {e : Result} {s : State} {a b : Byte} (he : e = .next (s.skipIf (a == b))) :
    ∃ t, e = .next t ∧ t.pc = (if a = b then s.pc + 2 else s.pc) ∧ Frame { pc := true } s t := by
  rw [State.skipIf_eq] at he
  simpa only [beq_iff_eq] using exists_next_of_setPc he

/-- A skip on difference completes, with the pc 2 further where the two bytes differ. -/
theorem exists_next_of_skipIf_ne {e : Result} {s : State} {a b : Byte} (he : e = .next (s.skipIf (a != b))) :
    ∃ t, e = .next t ∧ t.pc = (if a = b then s.pc else s.pc + 2) ∧ Frame { pc := true } s t := by
  rw [State.skipIf_eq] at he
  simpa only [bne_iff_ne, ne_eq, ite_not] using exists_next_of_setPc he

/-- Settles O39: the two bytes compared are V[x] and kk, and memory is not read. -/
theorem immediateSkipsTestOneRegister : Obligations.ImmediateSkipsTestOneRegister := by
  unfold Obligations.ImmediateSkipsTestOneRegister
  intro x kk s
  exact ⟨⟨decode_encode (.seKk x kk), exists_next_of_skipIf_eq rfl⟩,
    decode_encode (.sneKk x kk), exists_next_of_skipIf_ne rfl⟩

/-- Settles O40: a skip's row reads the word's op, x and y, whatever N is; the two bytes compared are V[x] and V[y]. -/
theorem registerSkipsTestTwoRegisters : Obligations.RegisterSkipsTestTwoRegisters := by
  unfold Obligations.RegisterSkipsTestTwoRegisters
  intro x y n s
  have hse : (Instr.seVy x y).Reads (0x5#4 ++ x ++ y ++ n) := ⟨opField_xyn .., xField_xyn .., yField_xyn ..⟩
  have hsne : (Instr.sneVy x y).Reads (0x9#4 ++ x ++ y ++ n) := ⟨opField_xyn .., xField_xyn .., yField_xyn ..⟩
  exact ⟨⟨decode_of_reads hse, exists_next_of_skipIf_eq rfl⟩, decode_of_reads hsne, exists_next_of_skipIf_ne rfl⟩

/-! The return and the call (R141, R143) -/

theorem exec_ret (s : State) : exec .ret s = commit s s.popPc := rfl

theorem exec_call (nnn : Addr) (s : State) :
    exec (.call nnn) s = commit s ((s.push s.pc).map (·.setPc (zextAddr nnn))) := rfl

/-- A return with an entry on the stack (R141). -/
theorem exec_ret_of_pos {s : State} (h : 0 < s.sp.val) :
    ∃ t, exec .ret s = .next t ∧ t.sp.val = s.sp.val - 1 ∧ s.stack[s.sp.val - 1]? = some t.pc ∧
      Frame { pc := true, sp := true } s t := by
  have hpop := State.popPc_ok h
  rw [exec_ret, hpop]
  exact ⟨_, commit_ok s _, rfl, Vector.getElem?_eq_getElem (by omega), (Frame.refl _ s).popPc rfl rfl hpop⟩

/-- A return on the empty stack (R141). -/
theorem exec_ret_of_empty {s : State} (h : s.sp.val = 0) : exec .ret s = .next (faulted s .stackUnderflow 0) := by
  rw [exec_ret, State.popPc_empty h]
  rfl

/-- A call below the stack's depth (R143). -/
theorem exec_call_of_lt (nnn : Addr) {s : State} (h : s.sp.val < 16) :
    ∃ t, exec (.call nnn) s = .next t ∧ t.stack[s.sp.val]? = some s.pc ∧
      (∀ j, j ≠ s.sp.val → t.stack[j]? = s.stack[j]?) ∧ t.sp.val = s.sp.val + 1 ∧ t.pc.toNat = nnn.toNat ∧
      Frame { pc := true, stack := true, sp := true } s t := by
  have hpush := State.push_ok s.pc h
  rw [exec_call, hpush]
  exact ⟨_, commit_ok s _, Vector.getElem?_set_self h, fun j hj => Vector.getElem?_set_ne h hj.symm, rfl,
    zextAddr_toNat nnn, ((Frame.refl _ s).push rfl rfl hpush).setPc rfl⟩

/-- A call on a full stack (R143). -/
theorem exec_call_of_full (nnn : Addr) {s : State} (h : s.sp.val = 16) :
    exec (.call nnn) s = .next (faulted s .stackOverflow 16) := by
  rw [exec_call, State.push_full s.pc h]
  rfl

/-- Settles O35: the row reads the word's op and n, whatever the two nibbles between them; then the two cases of the pop. -/
theorem returnPopsTheStackOrFaults : Obligations.ReturnPopsTheStackOrFaults := by
  unfold Obligations.ReturnPopsTheStackOrFaults
  have hret (a b : Nibble) : Instr.ret.Reads (0x0#4 ++ a ++ b ++ 0xE#4) := ⟨opField_xyn .., nField_xyn ..⟩
  exact ⟨fun a b => decode_of_reads (hret a b), fun s => ⟨exec_ret_of_pos, exec_ret_of_empty⟩⟩

/-- Settles O37: the two cases of the push. -/
theorem callPushesThePcOrFaults : Obligations.CallPushesThePcOrFaults := by
  unfold Obligations.CallPushesThePcOrFaults
  intro nnn s
  exact ⟨decode_encode (.call nnn), exec_call_of_lt nnn, exec_call_of_full nnn⟩

/-- Settles O38: the return takes sp back to where the call pushed, and the entry there is the pushed pc. -/
theorem callThenReturnComesBack : Obligations.CallThenReturnComesBack := by
  unfold Obligations.CallThenReturnComesBack
  intro nnn s hlt
  obtain ⟨t, hcall, hentry, -, htsp, -⟩ := exec_call_of_lt nnn hlt
  refine ⟨t, hcall, fun v hstack hsp => ?_⟩
  have hvsp : v.sp.val = s.sp.val + 1 := by rw [hsp, htsp]
  have hpos : 0 < v.sp.val := hvsp ▸ Nat.succ_pos _
  obtain ⟨u, hret, husp, hpc, -, -, -, -, hustack, -⟩ := exec_ret_of_pos hpos
  rw [hvsp, Nat.add_sub_cancel] at husp hpc
  refine ⟨u, hret, ?_, Fin.ext husp, (hustack rfl).trans hstack⟩
  rw [hstack, hentry] at hpc
  exact (Option.some.inj hpc).symm

end Sys2Proof.Machine

/-! PROOFS of the family 43_memory_ops.md: Annn, Fx1E and Fx29 write I alone; Fx33 and Fx55 are one store of bytes from I
on, which completes or faults as a whole, and Fx65 is the load that reads such a block back (R160 to R166). -/

namespace Sys2Proof.Machine

/-! The writes of I (R161 to R163) -/

/-- An instruction that writes I alone completes, and nothing else changes. -/
theorem exists_next_of_setI {e : Result} {s : State} {v : Word} (he : e = .next (s.setI v)) :
    ∃ t, e = .next t ∧ t.I = v ∧ Frame { index := true } s t :=
  ⟨s.setI v, he, State.setI_I s v, (Frame.refl _ s).setI rfl⟩

/-- The last glyph address, 0x050 + 5 * 255, fits I. -/
theorem glyphAddr_toNat (v : Byte) : (glyphAddr v).toNat = 0x050 + 5 * v.toNat := by
  have hfits : 0x050 + 5 * v.toNat < 2 ^ 16 := by omega
  exact (BitVec.toNat_ofNat ..).trans (Nat.mod_eq_of_lt hfits)

/-- Settles O42: the one write is of nnn, zero-extended, to I. -/
theorem setIndexWritesNnn : Obligations.SetIndexWritesNnn := by
  unfold Obligations.SetIndexWritesNnn
  intro nnn s
  obtain ⟨t, hexec, hI, hframe⟩ := exists_next_of_setI (e := exec (.ldI nnn) s) rfl
  refine ⟨decode_encode (.ldI nnn), t, hexec, ?_, hframe⟩
  rw [hI, zextAddr_toNat]

/-- Settles O43: the one write is of the 16-bit sum to I. -/
theorem addToIndexWrapsWithoutFlag : Obligations.AddToIndexWrapsWithoutFlag := by
  unfold Obligations.AddToIndexWrapsWithoutFlag
  intro x s
  obtain ⟨t, hexec, hI, hframe⟩ := exists_next_of_setI (e := exec (.addI x) s) rfl
  refine ⟨decode_encode (.addI x), t, hexec, ?_, hframe⟩
  rw [hI, BitVec.toNat_add, zextByte_toNat]

/-- Settles O44: the one write is of the glyph address, which does not wrap, to I. -/
theorem glyphAddressIsUnmasked : Obligations.GlyphAddressIsUnmasked := by
  unfold Obligations.GlyphAddressIsUnmasked
  intro x s
  obtain ⟨t, hexec, hI, hframe⟩ := exists_next_of_setI (e := exec (.ldF x) s) rfl
  refine ⟨decode_encode (.ldF x), t, hexec, ?_, hframe⟩
  rw [hI, glyphAddr_toNat]

/-! The stores (R164, R165) -/

/-- What Fx33 and Fx55 share: the bytes to I, I + 1, …, or the fault of the first address outside memory. -/
def State.storeAtIndex (s : State) (bytes : List Byte) : Result :=
  commit s ((memWriteBytes s.mem (s.indexAddr 0) bytes).map s.setMem)

theorem exec_ldB (x : RegIx) (s : State) : exec (.ldB x) s = s.storeAtIndex (bcdDigits (s.reg x)) := rfl

theorem exec_storeRegs (x : RegIx) (s : State) : exec (.storeRegs x) s = s.storeAtIndex (s.regsUpTo x) := rfl

/-- A store that ends inside memory completes, its bytes read back, and nothing else changes (R54, R61). -/
theorem State.storeAtIndex_of_le {s : State} {bytes : List Byte} (hwf : s.mem.wf)
    (hend : s.I.toNat + bytes.length ≤ 4096) :
    ∃ t, s.storeAtIndex bytes = .next t ∧
      (∀ i (hi : i < bytes.length), t.mem.read (s.I.toNat + i) = bytes[i]) ∧
      Frame { cells := s.indexCells bytes.length } s t := by
  have hwrite : memWriteBytes s.mem (s.indexAddr 0) bytes = .ok (s.mem.writeAll s.I.toNat bytes) :=
    (memWriteBytes_eq ..).trans (if_pos (.inl hend))
  rw [State.storeAtIndex, hwrite]
  exact ⟨_, commit_ok s _, fun _ hi => Memory.read_writeAll_inside bytes hwf hend hi, Frame.storeBytes hwrite rfl⟩

/-- A store that ends past memory is a fault and nothing else (R54, R246). -/
theorem State.storeAtIndex_of_lt {s : State} {bytes : List Byte} (hne : bytes ≠ [])
    (hend : 4096 < s.I.toNat + bytes.length) :
    s.storeAtIndex bytes = .next (faulted s .memoryOutOfRange (max 4096 s.I.toNat)) := by
  have hout : ¬(s.I.toNat + bytes.length ≤ 4096 ∨ bytes = []) := not_or.2 ⟨Nat.not_le.2 hend, hne⟩
  have hwrite : memWriteBytes s.mem (s.indexAddr 0) bytes =
      .error ⟨.memoryOutOfRange, BitVec.ofNat 17 (max 4096 s.I.toNat)⟩ := (memWriteBytes_eq ..).trans (if_neg hout)
  rw [State.storeAtIndex, hwrite]
  rfl

@[simp] theorem length_bcdDigits (v : Byte) : (bcdDigits v).length = 3 := rfl

/-- The hundreds, the tens and the ones are below 2^8, so a byte holds each. -/
theorem bcdDigits_toNat (v : Byte) :
    (bcdDigits v)[0].toNat = v.toNat / 100 ∧ (bcdDigits v)[1].toNat = v.toNat / 10 % 10 ∧
      (bcdDigits v)[2].toNat = v.toNat % 10 := by
  simp only [bcdDigits, List.getElem_cons_zero, List.getElem_cons_succ, BitVec.toNat_ofNat]
  omega

/-- Settles O45: a store of the three digits. -/
theorem bcdStoresThreeDigitsOrFaults : Obligations.BcdStoresThreeDigitsOrFaults := by
  unfold Obligations.BcdStoresThreeDigitsOrFaults
  intro x s
  refine ⟨decode_encode (.ldB x), fun hwf hin => ?_, fun hout => ?_⟩
  · obtain ⟨t, hexec, hread, hframe⟩ := State.storeAtIndex_of_le (bytes := bcdDigits (s.reg x)) hwf hin
    obtain ⟨hhundreds, htens, hones⟩ := bcdDigits_toNat (s.reg x)
    exact ⟨t, hexec, (congrArg BitVec.toNat (hread 0 (by simp))).trans hhundreds,
      (congrArg BitVec.toNat (hread 1 (by simp))).trans htens,
      (congrArg BitVec.toNat (hread 2 (by simp))).trans hones, hframe⟩
  · exact State.storeAtIndex_of_lt (bytes := bcdDigits (s.reg x)) (List.cons_ne_nil _ _) (Nat.lt_succ_of_le hout)

/-- Fx55 of a block inside memory (R165). -/
theorem exec_storeRegs_of_lt {x : RegIx} {s : State} (hwf : s.mem.wf) (h : s.I.toNat + x.toNat < 4096) :
    ∃ t, exec (.storeRegs x) s = .next t ∧
      (∀ i : RegIx, i.toNat ≤ x.toNat → t.mem.read (s.I.toNat + i.toNat) = s.reg i) ∧
      Frame { cells := s.indexCells (x.toNat + 1) } s t := by
  refine ⟨_, execStoreRegs_ok h, fun i hi => Memory.read_writeAll_regsUpTo hwf h hi, ?_⟩
  refine (Frame.refl _ s).setMem fun a ha => Memory.read_writeAll_outside _ _ _ _ ?_
  rw [State.length_regsUpTo]
  exact State.not_mem_indexCells ha

/-- Settles O46: a store of V0 to Vx. -/
theorem blockStoreCopiesRegistersOrFaults : Obligations.BlockStoreCopiesRegistersOrFaults := by
  unfold Obligations.BlockStoreCopiesRegistersOrFaults
  intro x s
  refine ⟨decode_encode (.storeRegs x), exec_storeRegs_of_lt, fun hout => ?_⟩
  have hlen : (s.regsUpTo x).length = x.toNat + 1 := s.length_regsUpTo x
  have hne : s.regsUpTo x ≠ [] := List.ne_nil_of_length_eq_add_one hlen
  exact State.storeAtIndex_of_lt hne (hlen ▸ Nat.lt_succ_of_le hout)

/-! The load (R166) -/

/-- A list of registers written from number `i` on leaves the registers before it. -/
theorem getElem_setRegsFrom_of_lt (V : Registers) (i : Nat) (vs : List Byte) {j : Nat} (hj : j < 16) (h : j < i) :
    (setRegsFrom V i vs)[j] = V[j] := by
  induction vs generalizing V i with
  | nil => rfl
  | cons v vs ih => rw [setRegsFrom, ih _ _ (by omega), Vector.getElem_setIfInBounds_ne hj (by omega)]

/-- A list of registers written from number `i` on is what those registers then hold. -/
theorem getElem_setRegsFrom_add (V : Registers) (i : Nat) (vs : List Byte) {k : Nat} (hk : k < vs.length)
    (hik : i + k < 16) : (setRegsFrom V i vs)[i + k] = vs[k] := by
  induction vs generalizing V i k with
  | nil => exact absurd hk (Nat.not_lt_zero k)
  | cons v vs ih =>
    cases k with
    | zero =>
      rw [setRegsFrom, getElem_setRegsFrom_of_lt _ _ _ hik (Nat.lt_succ_self _)]
      exact Vector.getElem_setIfInBounds_self hik
    | succ k =>
      have htail := ih (V.setIfInBounds i v) (i + 1) (Nat.lt_of_succ_lt_succ hk) (by omega)
      simpa only [setRegsFrom, List.getElem_cons_succ, Nat.add_assoc, Nat.add_comm 1 k] using htail

theorem exec_loadRegs (x : RegIx) (s : State) :
    exec (.loadRegs x) s =
      commit s ((memReadBytes s.mem s.I.toNat (x.toNat + 1)).map fun vs => s.setV (setRegsFrom s.V 0 vs)) := rfl

/-- Fx65 of a block inside memory (R166). -/
theorem exec_loadRegs_of_lt {x : RegIx} {s : State} (h : s.I.toNat + x.toNat < 4096) :
    ∃ t, exec (.loadRegs x) s = .next t ∧
      (∀ i : RegIx, i.toNat ≤ x.toNat → t.reg i = s.mem.read (s.I.toNat + i.toNat)) ∧
      Frame { regs := regsThrough x } s t := by
  have hread := memReadBytes_eq s.mem s.I.toNat (x.toNat + 1)
  rw [if_pos (.inl h)] at hread
  rw [exec_loadRegs, hread]
  refine ⟨_, commit_ok s _, fun i hi => ?_, Frame.loadBytes hread rfl⟩
  have hload := getElem_setRegsFrom_add s.V 0 ((List.range (x.toNat + 1)).map fun k => s.mem.read (s.I.toNat + k))
    (k := i.toNat) (by simp; omega) (by omega)
  simpa [State.reg] using hload

/-- Fx65 of a block that ends past memory (R166, R246). -/
theorem exec_loadRegs_of_le {x : RegIx} {s : State} (h : 4096 ≤ s.I.toNat + x.toNat) :
    exec (.loadRegs x) s = .next (faulted s .memoryOutOfRange (max 4096 s.I.toNat)) := by
  have hout : ¬(s.I.toNat + (x.toNat + 1) ≤ 4096 ∨ x.toNat + 1 = 0) := by omega
  rw [exec_loadRegs, memReadBytes_eq, if_neg hout]
  rfl

/-- Settles O47: the two cases of the block read. -/
theorem blockLoadCopiesMemoryOrFaults : Obligations.BlockLoadCopiesMemoryOrFaults := by
  unfold Obligations.BlockLoadCopiesMemoryOrFaults
  intro x s
  exact ⟨decode_encode (.loadRegs x), exec_loadRegs_of_lt, exec_loadRegs_of_le⟩

/-- The registers of a block are numbered up to x. -/
theorem le_of_mem_regsThrough {x r : RegIx} (h : r ∈ regsThrough x) : r.toNat ≤ x.toNat := by
  obtain ⟨k, hk, rfl⟩ := List.mem_map.1 h
  rw [BitVec.toNat_ofNat]
  exact (Nat.mod_le _ _).trans (Nat.le_of_lt_succ (List.mem_range.1 hk))

/-- Settles O48: the load reads V0 to Vx where the store put them; the registers above x are in neither frame. -/
theorem blockStoreThenLoadRestoresRegisters : Obligations.BlockStoreThenLoadRestoresRegisters := by
  unfold Obligations.BlockStoreThenLoadRestoresRegisters
  intro x s hwf hin
  obtain ⟨t, hstore, hstored, htreg, -, htI, -⟩ := exec_storeRegs_of_lt hwf hin
  have hback (v : State) (hmem : v.mem = t.mem) (hI : v.I = t.I) :
      ∃ u, exec (.loadRegs x) v = .next u ∧ (∀ i : RegIx, i.toNat ≤ x.toNat → u.reg i = s.reg i) ∧
        Frame { regs := regsThrough x } v u := by
    have hvI : v.I = s.I := hI.trans (htI rfl)
    obtain ⟨u, hload, hloaded, hframe⟩ := exec_loadRegs_of_lt (x := x) (s := v) (hvI ▸ hin)
    refine ⟨u, hload, fun i hi => ?_, hframe⟩
    rw [hloaded i hi, hmem, hvI, hstored i hi]
  refine ⟨t, hstore, fun v hmem hI => ?_, ?_⟩
  · obtain ⟨u, hload, hregs, -⟩ := hback v hmem hI
    exact ⟨u, hload, hregs⟩
  · obtain ⟨u, hload, hregs, hureg, -⟩ := hback t rfl rfl
    refine ⟨u, hload, fun r => ?_⟩
    by_cases hr : r.toNat ≤ x.toNat
    · exact hregs r hr
    · have hnot : r ∉ regsThrough x := fun hmem => hr (le_of_mem_regsThrough hmem)
      rw [hureg r hnot, htreg r List.not_mem_nil]

end Sys2Proof.Machine

/-! PROOFS of the family 44_timer.md: Fx07 writes V[x] alone and Fx15 and Fx18 write their timer alone; none of them counts
a timer down, which the cycle's end does after them (R180 to R183, R104). -/

namespace Sys2Proof.Machine

/-- An instruction that writes DT alone completes, and nothing else changes. -/
theorem exists_next_of_setDT {e : Result} {s : State} {v : Byte} (he : e = .next (s.setDT v)) :
    ∃ t, e = .next t ∧ t.DT = v ∧ Frame { delay := true } s t :=
  ⟨s.setDT v, he, State.setDT_DT s v, (Frame.refl _ s).setDT rfl⟩

/-- An instruction that writes ST alone completes, and nothing else changes. -/
theorem exists_next_of_setST {e : Result} {s : State} {v : Byte} (he : e = .next (s.setST v)) :
    ∃ t, e = .next t ∧ t.ST = v ∧ Frame { sound := true } s t :=
  ⟨s.setST v, he, State.setST_ST s v, (Frame.refl _ s).setST rfl⟩

/-- A completed instruction takes no fault, so a core that ran before it runs at the cycle's end. -/
theorem Frame.running {w : Touch} {s t : State} (h : Frame w s t) (hrun : s.fault = none) : t.fault = none := by
  obtain ⟨-, -, -, -, -, -, -, -, -, -, hfault, -⟩ := h
  exact hfault.trans hrun

/-- Settles O50: the one write is of DT to V[x]; DT is not in the frame, and the cycle's end counts it down and writes no
register. -/
theorem readDelayTimerSeesTheValueBeforeTheCountdown : Obligations.ReadDelayTimerSeesTheValueBeforeTheCountdown := by
  unfold Obligations.ReadDelayTimerSeesTheValueBeforeTheCountdown
  intro x s
  obtain ⟨t, hexec, hx, hframe⟩ := exists_next_of_setReg (e := exec (.ldVxDT x) s) rfl
  refine ⟨decode_encode (.ldVxDT x), t, hexec, hx, hframe, fun hrun => ⟨?_, ?_⟩⟩
  · rw [State.endCycle_DT_toNat (hframe.running hrun), hframe.DT_eq rfl]
  · rw [State.reg_endCycle, hx]

/-- Settles O51: the one write is of V[x] to the timer, and the cycle's end counts down the value written. -/
theorem setTimersTakeV : Obligations.SetTimersTakeV := by
  unfold Obligations.SetTimersTakeV
  intro x s
  obtain ⟨t, hexecDT, hDT, hframeDT⟩ := exists_next_of_setDT (e := exec (.ldDTVx x) s) rfl
  obtain ⟨u, hexecST, hST, hframeST⟩ := exists_next_of_setST (e := exec (.ldSTVx x) s) rfl
  refine ⟨⟨decode_encode (.ldDTVx x), t, hexecDT, hDT, hframeDT, fun hrun => ?_⟩,
    decode_encode (.ldSTVx x), u, hexecST, hST, hframeST, fun hrun => ?_⟩
  · rw [State.endCycle_DT_toNat (hframeDT.running hrun), hDT]
  · rw [State.endCycle_ST_toNat (hframeST.running hrun), hST]

end Sys2Proof.Machine

/-! PROOFS of the family 45_display.md: 00E0 writes the framebuffer alone; a draw that raises nothing plots distinct pixels,
those its sprite covers, and a draw that raises stops at the first row or bit that does (R190 to R193, R246). -/

namespace Sys2Proof.Machine

/-! Clearing the screen (R191) -/

/-- Settles O53: the row reads the word's op and n, whatever the two nibbles between them; the one write is of the blank
framebuffer. -/
theorem clearScreenTurnsEveryPixelOff : Obligations.ClearScreenTurnsEveryPixelOff := by
  unfold Obligations.ClearScreenTurnsEveryPixelOff
  have hcls (a b : Nibble) : Instr.cls.Reads (0x0#4 ++ a ++ b ++ 0x0#4) := ⟨opField_xyn .., nField_xyn ..⟩
  exact ⟨fun a b => decode_of_reads (hcls a b), fun s =>
    ⟨s.setFb Framebuffer.blank, rfl, Framebuffer.pixel_blank, (Frame.refl _ s).setFb rfl, rfl⟩⟩

/-! The pixels a draw lands on (R190, R193) -/

/-- A position inside the grid lands on itself, and under `wrap` any position lands on its remainders. -/
theorem landing_eq_some_iff {edge : SpriteEdge} {px py : Nat} {q : Fin 64 × Fin 32} :
    landing edge px py = some q ↔
      (px = q.1.val ∧ py = q.2.val) ∨ (edge = .wrap ∧ px % 64 = q.1.val ∧ py % 32 = q.2.val) := by
  have hval : (Fin.ofNat 64 px, Fin.ofNat 32 py) = q ↔ px % 64 = q.1.val ∧ py % 32 = q.2.val := by
    simp [Prod.ext_iff, Fin.ext_iff]
  unfold landing
  split_ifs with h
  · rw [Option.some.injEq, hval]
    obtain ⟨hx, hy⟩ | he := h
    · rw [Nat.mod_eq_of_lt hx, Nat.mod_eq_of_lt hy]
      tauto
    · simp only [he, true_and]
      omega
  · have hout : ¬(px = q.1.val ∧ py = q.2.val) := fun ⟨hx, hy⟩ => h (.inl ⟨hx ▸ q.1.isLt, hy ▸ q.2.isLt⟩)
    simp [hout, (not_or.1 h).2]

/-- A pixel landed on names its position up to the grid's size. -/
theorem mod_eq_of_landing {edge : SpriteEdge} {px py : Nat} {q : Fin 64 × Fin 32} (h : landing edge px py = some q) :
    px % 64 = q.1.val ∧ py % 32 = q.2.val := by
  obtain ⟨hx, hy⟩ | ⟨-, hxy⟩ := landing_eq_some_iff.1 h
  · omega
  · exact hxy

theorem mem_rowLandings {edge : SpriteEdge} {row : Byte} {ox py : Nat} {cs : List Nat} {q : Fin 64 × Fin 32} :
    q ∈ rowLandings edge row ox py cs ↔
      ∃ c ∈ cs, row.getLsbD (7 - c) = true ∧ landing edge (ox + c) py = some q := by
  simp [rowLandings]

/-- Eight columns are fewer than the grid's 64, so no two land on one pixel. -/
theorem nodup_rowLandings (edge : SpriteEdge) (row : Byte) (ox py : Nat) :
    (rowLandings edge row ox py (List.range 8)).Nodup := by
  refine List.pairwise_filterMap.2 (List.nodup_range.pairwise_of_forall_ne fun c hc d hd hcd q hq p hp hqp => hcd ?_)
  have hq' := mod_eq_of_landing (Option.ite_none_right_eq_some.1 hq).2
  have hp' := mod_eq_of_landing (Option.ite_none_right_eq_some.1 hp).2
  rw [List.mem_range] at hc hd
  subst hqp
  omega

/-- The pixels the sprite of `Dxyn` lands on, in the order the draw plots them (R192). -/
def State.landings (s : State) (x y : RegIx) (n : Nibble) : List (Fin 64 × Fin 32) :=
  (List.range n.toNat).flatMap fun r =>
    rowLandings s.spriteEdge (s.mem.read (s.indexAddr 0 + r)) (s.originX x) (s.originY y + r) (List.range 8)

theorem State.mem_landings {s : State} {x y : RegIx} {n : Nibble} {px : Fin 64} {py : Fin 32} :
    (px, py) ∈ s.landings x y n ↔ s.Covers x y n px py := by
  simp only [State.landings, List.mem_flatMap, mem_rowLandings, List.mem_range, landing_eq_some_iff]
  constructor
  · rintro ⟨r, hr, c, hc, hbit, hland⟩
    exact ⟨r, c, hr, hc, hbit, hland⟩
  · rintro ⟨r, c, hr, hc, hbit, hland⟩
    exact ⟨r, hr, c, hc, hbit, hland⟩

/-- At most 15 rows are fewer than the grid's 32, so no two land on one pixel either. -/
theorem State.nodup_landings (s : State) (x y : RegIx) (n : Nibble) : (s.landings x y n).Nodup := by
  refine List.nodup_flatMap.2 ⟨fun r _ => nodup_rowLandings .., ?_⟩
  refine List.nodup_range.pairwise_of_forall_ne fun r hr t ht hrt q hq hq' => hrt ?_
  obtain ⟨c, -, -, hc⟩ := mem_rowLandings.1 hq
  obtain ⟨d, -, -, hd⟩ := mem_rowLandings.1 hq'
  have hrow := (mod_eq_of_landing hc).2
  have hrow' := (mod_eq_of_landing hd).2
  rw [List.mem_range] at hr ht
  omega

/-! A draw that raises nothing (R190 to R192) -/

theorem exec_drw (x y : RegIx) (n : Nibble) (s : State) :
    exec (.drw x y n) s =
      commit s ((drawRows s.spriteEdge s.mem (s.indexAddr 0) (s.originX x) (s.originY y) (List.range n.toNat)
        ⟨s.fb, 0⟩).map fun k => (s.setFb k.fb).setFlag k.vf) := rfl

/-- A set bit that does not overhang is inside the grid. -/
theorem State.inGrid_of_not_overhangs {s : State} {x y : RegIx} {r c : Nat} (h : ¬s.Overhangs x y r c) (hc : c < 8)
    (hbit : (s.mem.read (s.indexAddr 0 + r)).getLsbD (7 - c) = true) : s.originX x + c < 64 ∧ s.originY y + r < 32 := by
  by_contra hout
  exact h ⟨hc, hbit, hout⟩

/-- A draw that raises nothing completes: the covered pixels are toggled, VF says whether one was on, and nothing else
changes. -/
theorem exec_drw_of_inside {x y : RegIx} {n : Nibble} {s : State} (hmem : ∀ r, r < n.toNat → s.I.toNat + r < 4096)
    (hgrid : s.spriteEdge = .fault → ∀ r c, r < n.toNat → ¬s.Overhangs x y r c) :
    ∃ t, exec (.drw x y n) s = .next t ∧
      (∀ px py, s.Covers x y n px py → t.fb.pixel px py = !s.fb.pixel px py) ∧
      (∀ px py, ¬s.Covers x y n px py → t.fb.pixel px py = s.fb.pixel px py) ∧
      ((∃ px py, s.Covers x y n px py ∧ s.fb.pixel px py = true) → t.reg 0xF = 1) ∧
      ((∀ px py, s.Covers x y n px py → s.fb.pixel px py = false) → t.reg 0xF = 0) ∧
      Frame { regs := [0xF], screen := true } s t := by
  have hrows := drawRows_ok (edge := s.spriteEdge) (m := s.mem) (base := s.indexAddr 0) (ox := s.originX x)
    (oy := s.originY y) (List.range n.toNat) ⟨s.fb, 0⟩ (fun r hr => hmem r (List.mem_range.1 hr))
    fun he r hr c hc hbit => State.inGrid_of_not_overhangs (hgrid he r c (List.mem_range.1 hr)) hc hbit
  have hnodup := s.nodup_landings x y n
  have hpixel := plotAll_pixel (s.landings x y n) hnodup ⟨s.fb, 0⟩
  have hvf := plotAll_vf (s.landings x y n) hnodup ⟨s.fb, 0⟩
  rw [exec_drw, hrows]
  refine ⟨_, commit_ok s _, fun px py hcov => ?_, fun px py hcov => ?_, ?_, fun hoff => ?_,
    ((Frame.refl _ s).setFb rfl).setReg (.head _)⟩
  · exact (hpixel (px, py)).trans (if_pos (State.mem_landings.2 hcov))
  · exact (hpixel (px, py)).trans (if_neg (mt State.mem_landings.1 hcov))
  · rintro ⟨px, py, hcov, hon⟩
    have hany : (s.landings x y n).any (fun p => s.fb.pixel p.1 p.2) = true :=
      List.any_eq_true.2 ⟨(px, py), State.mem_landings.2 hcov, hon⟩
    exact (State.reg_setReg_self _ _ _).trans (hvf.trans (if_pos hany))
  · have hany : ¬(s.landings x y n).any (fun p => s.fb.pixel p.1 p.2) = true := by
      intro h
      obtain ⟨⟨px, py⟩, hp, hon⟩ := List.any_eq_true.1 h
      exact Bool.false_ne_true ((hoff px py (State.mem_landings.1 hp)).symm.trans hon)
    exact (State.reg_setReg_self _ _ _).trans (hvf.trans (if_neg hany))

/-- Settles O54: the draw plots the landings, which are distinct and are the pixels covered. -/
theorem drawXorsTheSpriteAndReportsCollision : Obligations.DrawXorsTheSpriteAndReportsCollision := by
  unfold Obligations.DrawXorsTheSpriteAndReportsCollision
  intro x y n s
  exact ⟨decode_encode (.drw x y n), exec_drw_of_inside⟩

/-! A draw that raises (R54, R193, R246) -/

/-- The numbers below n up to one of them, that one, and the rest. -/
theorem exists_range_eq_append_cons {r n : Nat} (h : r < n) : ∃ qs, List.range n = List.range r ++ r :: qs := by
  obtain ⟨k, rfl⟩ := Nat.exists_eq_add_of_lt h
  refine ⟨(List.range k).map (r + ·.succ), ?_⟩
  rw [Nat.add_assoc, List.range_add, List.range_succ_eq_map, List.map_cons, List.map_map]
  rfl

/-- A draw whose first raising row is r records the fault that row raises and does nothing else. -/
theorem exec_drw_of_row_error {x y : RegIx} {n : Nibble} {s : State} {r : Nat} {cause : FaultCause} {info : Nat}
    (hr : r < n.toNat) (hmem : ∀ q, q < r → s.I.toNat + q < 4096)
    (hgrid : s.spriteEdge = .fault → ∀ q c, q < r → ¬s.Overhangs x y q c)
    (hrow : ∀ qs k, drawRows s.spriteEdge s.mem (s.indexAddr 0) (s.originX x) (s.originY y) (r :: qs) k =
      .error ⟨cause, BitVec.ofNat 17 info⟩) :
    exec (.drw x y n) s = .next (faulted s cause info) := by
  obtain ⟨qs, hrange⟩ := exists_range_eq_append_cons hr
  have hrows := drawRows_append_error (List.range r) qs ⟨s.fb, 0⟩ (base := s.indexAddr 0)
    (fun q hq => hmem q (List.mem_range.1 hq))
    (fun he q hq c hc hbit => State.inGrid_of_not_overhangs (hgrid he q c (List.mem_range.1 hq)) hc hbit) (hrow qs)
  rw [exec_drw, hrange, hrows]
  rfl

/-- Settles O55: the row's read raises before any of its bits is plotted. -/
theorem drawPastMemoryEndFaults : Obligations.DrawPastMemoryEndFaults := by
  unfold Obligations.DrawPastMemoryEndFaults
  intro x y n s r hr hout hmem hgrid
  refine exec_drw_of_row_error hr hmem hgrid fun qs k => ?_
  have hread : memRead s.mem (s.indexAddr 0 + r) = .error ⟨.memoryOutOfRange, BitVec.ofNat 17 (s.I.toNat + r)⟩ :=
    (memRead_eq ..).trans (if_pos hout)
  rw [drawRows, hread]

/-- Settles O56: the row is read, its bits before column c are plotted, and the bit at column c raises. -/
theorem drawOutsideTheGridFaultsUnderPolicyFault : Obligations.DrawOutsideTheGridFaultsUnderPolicyFault := by
  unfold Obligations.DrawOutsideTheGridFaultsUnderPolicyFault
  intro x y n s r c hedge hr hmem hover hfirst
  refine exec_drw_of_row_error hr (fun q hq => hmem q hq.le) (fun _ q d hq => hfirst q d (.inl hq)) fun qs k => ?_
  obtain ⟨hc, hbit, hout⟩ := hover
  obtain ⟨ds, hrange⟩ := exists_range_eq_append_cons hc
  have hbefore : ∀ d ∈ List.range c, (s.mem.read (s.indexAddr 0 + r)).getLsbD (7 - d) = true →
      s.originX x + d < 64 ∧ s.originY y + r < 32 := fun d hd hbit =>
    State.inGrid_of_not_overhangs (hfirst r d (.inr ⟨rfl, List.mem_range.1 hd⟩)) ((List.mem_range.1 hd).trans hc) hbit
  have hread : memRead s.mem (s.indexAddr 0 + r) = .ok (s.mem.read (s.indexAddr 0 + r)) :=
    (memRead_eq ..).trans (if_neg (Nat.not_le.2 (hmem r le_rfl)))
  simp only [drawRows, hread, hedge, hrange, drawRow_overhang _ ds k hbefore hbit hout]

/-! The same sprite twice (R192) -/

/-- Two framebuffers with the same pixels are one. -/
theorem Framebuffer.ext_pixel {f g : Framebuffer} (h : ∀ px py, f.pixel px py = g.pixel px py) : f = g :=
  Vector.ext fun py hy => Vector.ext fun px hx => h ⟨px, hx⟩ ⟨py, hy⟩

/-! What keeps I, memory and V[x], V[y] keeps the sprite and its place (R190). -/

section SpriteInFrame

variable {w : Touch} {s t : State} {x y : RegIx}

theorem Frame.I_eq (h : Frame w s t) (hw : w.index = false) : t.I = s.I := by
  obtain ⟨-, -, hI, -⟩ := h
  exact hI hw

theorem Frame.originX_eq (h : Frame w s t) (hx : x ∉ w.regs) : t.originX x = s.originX x := by
  obtain ⟨hreg, -⟩ := h
  rw [State.originX, State.originX, hreg x hx]

theorem Frame.originY_eq (h : Frame w s t) (hy : y ∉ w.regs) : t.originY y = s.originY y := by
  obtain ⟨hreg, -⟩ := h
  rw [State.originY, State.originY, hreg y hy]

theorem Frame.spriteBit_eq (h : Frame w s t) (hcells : w.cells = []) (hindex : w.index = false) (r c : Nat) :
    t.spriteBit r c = s.spriteBit r c := by
  have hI := h.I_eq hindex
  obtain ⟨-, hread, -⟩ := h
  rw [State.spriteBit, State.spriteBit, hread _ (hcells ▸ List.not_mem_nil), State.indexAddr, State.indexAddr, hI]

variable (h : Frame w s t) (hcells : w.cells = []) (hindex : w.index = false) (hx : x ∉ w.regs) (hy : y ∉ w.regs)
include h hcells hindex hx hy

theorem Frame.overhangs_iff {r c : Nat} : t.Overhangs x y r c ↔ s.Overhangs x y r c := by
  simp only [State.Overhangs, h.originX_eq hx, h.originY_eq hy, h.spriteBit_eq hcells hindex]

theorem Frame.covers_iff {n : Nibble} {px : Fin 64} {py : Fin 32} : t.Covers x y n px py ↔ s.Covers x y n px py := by
  simp only [State.Covers, h.originX_eq hx, h.originY_eq hy, h.spriteBit_eq hcells hindex, h.keys_spriteEdge.2]

end SpriteInFrame

/-- Settles O57: the second draw covers the pixels the first did, so each is toggled twice or never; from a blank screen the
second finds on what the first turned on. -/
theorem drawingTwiceRestoresTheScreen : Obligations.DrawingTwiceRestoresTheScreen := by
  unfold Obligations.DrawingTwiceRestoresTheScreen
  intro x y n s hx hy hmem hgrid
  obtain ⟨t, hdraw, hcov, hrest, -, hmiss, hframe⟩ := exec_drw_of_inside hmem hgrid
  obtain ⟨-, hedge⟩ := hframe.keys_spriteEdge
  have hxF : x ∉ [(0xF : RegIx)] := mt List.mem_singleton.1 hx
  have hyF : y ∉ [(0xF : RegIx)] := mt List.mem_singleton.1 hy
  have hsame {px py} : t.Covers x y n px py ↔ s.Covers x y n px py := hframe.covers_iff rfl rfl hxF hyF
  obtain ⟨u, hredraw, hucov, hurest, huhit, -⟩ := exec_drw_of_inside (s := t) (hframe.I_eq rfl ▸ hmem)
    fun he r c hr => mt (hframe.overhangs_iff rfl rfl hxF hyF).1 (hgrid (hedge ▸ he) r c hr)
  refine ⟨t, u, hdraw, hredraw, Framebuffer.ext_pixel fun px py => ?_, fun hblank => ?_⟩
  · by_cases h : s.Covers x y n px py
    · rw [hucov px py (hsame.2 h), hcov px py h, Bool.not_not]
    · rw [hurest px py (mt hsame.1 h), hrest px py h]
  · rintro ⟨px, py, h⟩
    have hon : t.fb.pixel px py = true := by rw [hcov px py h, hblank px py, Bool.not_false]
    exact ⟨hmiss fun px py _ => hblank px py, huhit ⟨px, py, hsame.2 h, hon⟩⟩

end Sys2Proof.Machine

/-! PROOFS of the family 46_input.md: the two key skips test the key V[x] names or raise (R211, R212), and Fx0A takes the
lowest pressed key or moves back to re-execute (R213). -/

namespace Sys2Proof.Machine

/-! The key skips (R211, R212): `Ex9E` skips on the tested level itself, `ExA1` on its negation. -/

theorem exec_skp (x : RegIx) (s : State) :
    exec (.skp x) s = commit s ((s.keyAt (s.reg x)).map fun b => s.skipIf b) := rfl

theorem exec_sknp (x : RegIx) (s : State) :
    exec (.sknp x) s = commit s ((s.keyAt (s.reg x)).map fun b => s.skipIf (!b)) := rfl

/-- A test of a key in range completes, with the pc 2 further where the level tested for holds. -/
theorem exists_next_of_keyAt_lt {e : Result} {s : State} {k : Byte} (f : Bool → Bool) (hk : k.toNat < 16)
    (he : e = commit s ((s.keyAt k).map fun b => s.skipIf (f b))) :
    ∃ t, e = .next t ∧ t.pc = (if f s.keys[k.toNat] then s.pc + 2 else s.pc) ∧ Frame { pc := true } s t := by
  rw [State.keyAt_ok hk, Except.map, commit_ok, State.skipIf_eq] at he
  exact exists_next_of_setPc he

/-- A test of a number that is no key raises it, whatever was to be done with the level. -/
theorem commit_keyAt_of_le {s : State} {k : Byte} (f : Bool → State) (hk : 16 ≤ k.toNat) :
    commit s ((s.keyAt k).map f) = .next (faulted s .keyIndexOutOfRange k.toNat) := by
  rw [State.keyAt_out hk, faulted, BitVec.ofNat_toNat]
  rfl

/-- Settles O58: a skip's row reads the word's op, x and last nibble, whatever y is; then the two cases of the key test. -/
theorem keySkipsTestTheNamedKeyOrFault : Obligations.KeySkipsTestTheNamedKeyOrFault := by
  unfold Obligations.KeySkipsTestTheNamedKeyOrFault
  intro x s
  have hskp (y : Nibble) : (Instr.skp x).Reads (0xE#4 ++ x ++ y ++ 0xE#4) :=
    ⟨opField_xyn .., xField_xyn .., nField_xyn ..⟩
  have hsknp (y : Nibble) : (Instr.sknp x).Reads (0xE#4 ++ x ++ y ++ 0x1#4) :=
    ⟨opField_xyn .., xField_xyn .., nField_xyn ..⟩
  refine ⟨fun y => ⟨decode_of_reads (hskp y), decode_of_reads (hsknp y)⟩, fun hk => ?_, fun hk => ?_⟩
  · obtain ⟨t, hexec, hpc, hframe⟩ := exists_next_of_keyAt_lt id hk (exec_skp x s)
    obtain ⟨u, hexec', hpc', hframe'⟩ := exists_next_of_keyAt_lt not hk (exec_sknp x s)
    simp only [Bool.not_eq_true', ← Bool.not_eq_true, ite_not] at hpc'
    exact ⟨_, t, u, Vector.getElem?_eq_getElem hk, hexec, hpc, hframe, hexec', hpc', hframe'⟩
  · rw [exec_skp, exec_sknp]
    exact ⟨commit_keyAt_of_le _ hk, commit_keyAt_of_le _ hk⟩

/-! Waiting for a key (R213) -/

/-- The scan finds the key whose flag is set and below which none is. -/
theorem State.firstKey_eq_some {s : State} {k : Nat} (hk : s.keys[k]? = some true)
    (hbelow : ∀ j, j < k → s.keys[j]? = some false) : s.firstKey = some k := by
  obtain ⟨hlt, hon⟩ := Vector.getElem?_eq_some_iff.1 hk
  refine List.findIdx?_eq_some_iff_getElem.2 ⟨by rwa [Vector.length_toList], hon, fun j hj => ?_⟩
  obtain ⟨_, hoff⟩ := Vector.getElem?_eq_some_iff.1 (hbelow j hj)
  exact Bool.eq_false_iff.1 hoff

/-- The scan finds nothing where no flag is set. -/
theorem State.firstKey_eq_none {s : State} (h : ∀ k, k < 16 → s.keys[k]? = some false) : s.firstKey = none := by
  refine List.findIdx?_eq_none_iff.2 fun b hb => ?_
  obtain ⟨k, hk, rfl⟩ := Vector.getElem_of_mem (Vector.mem_toList_iff.1 hb)
  exact (Vector.getElem?_eq_some_iff.1 (h k hk)).2

/-- Fx0A never raises, so it always keeps its frame. -/
theorem exec_ldVxK_frame {x : RegIx} {s t : State} (h : exec (.ldVxK x) s = .next t) :
    Frame { regs := [x], pc := true } s t := by
  have hs := Frame.refl { regs := [x], pc := true } s
  cases hk : s.firstKey with
  | some k => exact Host.Outcome.next.inj ((execLdVxK_some x hk).symm.trans h) ▸ hs.setReg (.head _)
  | none => exact Host.Outcome.next.inj ((execLdVxK_none x hk).symm.trans h) ▸ hs.setPc rfl

/-- Settles O59: the one write is of the key the scan finds to V[x], or of pc - 2 to the pc; neither timer is in the frame,
and the cycle's end counts them down. -/
theorem waitForKeyTakesTheLowestOrReexecutes : Obligations.WaitForKeyTakesTheLowestOrReexecutes := by
  unfold Obligations.WaitForKeyTakesTheLowestOrReexecutes
  intro x s
  refine ⟨decode_encode (.ldVxK x), fun k hk hbelow => ?_, fun hnone => ?_, fun t hexec hrun => ?_⟩
  · obtain ⟨t, hexec, hx, hframe⟩ := exists_next_of_setReg (execLdVxK_some x (State.firstKey_eq_some hk hbelow))
    obtain ⟨hlt, -⟩ := Vector.getElem?_eq_some_iff.1 hk
    refine ⟨t, hexec, ?_, hframe⟩
    rw [hx, BitVec.toNat_ofNat]
    omega
  · exact exists_next_of_setPc (execLdVxK_none x (State.firstKey_eq_none hnone))
  · have hframe := exec_ldVxK_frame hexec
    have ht := hframe.running hrun
    rw [State.endCycle_DT_toNat ht, State.endCycle_ST_toNat ht, hframe.DT_eq rfl, hframe.ST_eq rfl]
    exact ⟨rfl, rfl⟩

end Sys2Proof.Machine

/-! PROOFS of the family 60_exceptions.md: everything one cycle can do is complete, or record a fault that the state it
leaves standing explains (R240 to R243); a stopped core stays as it is until Init (R244); the host's key and its reads
(R255). -/

namespace Sys2Proof.Machine

/-! What a draw raises (R54, R193, R246) -/

/-- A plot raises under policy `fault` only, at a position outside the grid (R193). -/
theorem plot_error {edge : SpriteEdge} {k : Canvas} {px py : Nat} {e : Raised} (h : plot edge k px py = .error e) :
    edge = .fault ∧ ¬(px < 64 ∧ py < 32) ∧ e = ⟨.spriteOutOfBounds, BitVec.ofNat 17 (py * 64 + px)⟩ := by
  rw [plot_eq] at h
  split_ifs at h with hin hclip hwrap
  refine ⟨?_, hin, (Except.error.inj h).symm⟩
  cases edge with
  | clip => exact absurd rfl hclip
  | wrap => exact absurd rfl hwrap
  | fault => rfl

/-- A row raises what the plot of one of its set bits raises. -/
theorem drawRow_error {edge : SpriteEdge} {row : Byte} {ox py : Nat} {cs : List Nat} {k : Canvas} {e : Raised}
    (h : drawRow edge row ox py cs k = .error e) :
    edge = .fault ∧ ∃ c ∈ cs, row.getLsbD (7 - c) = true ∧ ¬(ox + c < 64 ∧ py < 32) ∧
      e = ⟨.spriteOutOfBounds, BitVec.ofNat 17 (py * 64 + (ox + c))⟩ := by
  induction cs generalizing k with
  | nil => cases h
  | cons c cs ih =>
    rw [List.exists_mem_cons_iff]
    unfold drawRow at h
    split_ifs at h with hbit
    · cases hp : plot edge k (ox + c) py with
      | ok k' => exact (ih (by simpa only [hp] using h)).imp_right .inr
      | error e' =>
        obtain ⟨hedge, hout, rfl⟩ := plot_error hp
        obtain rfl : _ = e := by simpa only [hp, Except.error.injEq] using h
        exact ⟨hedge, .inl ⟨hbit, hout, rfl⟩⟩
    · exact (ih h).imp_right .inr

/-- The rows j, j + 1, … of a sprite raise at the first address outside memory, or what one of the rows raises. -/
theorem drawRows_error {edge : SpriteEdge} {m : Memory} {base ox oy j n : Nat} {k : Canvas} {e : Raised}
    (h : drawRows edge m base ox oy (List.range' j n) k = .error e) :
    (e = ⟨.memoryOutOfRange, BitVec.ofNat 17 (max 4096 (base + j))⟩ ∧ 4096 < base + j + n ∧ 0 < n) ∨
    (edge = .fault ∧ ∃ r c, r < j + n ∧ c < 8 ∧ (m.read (base + r)).getLsbD (7 - c) = true ∧
      ¬(ox + c < 64 ∧ oy + r < 32) ∧ e = ⟨.spriteOutOfBounds, BitVec.ofNat 17 ((oy + r) * 64 + (ox + c))⟩) := by
  induction n generalizing j k with
  | zero => cases h
  | succ n ih =>
    rw [List.range'_succ, drawRows, memRead_eq] at h
    by_cases hout : 4096 ≤ base + j
    · simp only [if_pos hout, Except.error.injEq] at h
      exact .inl ⟨by rw [max_eq_right hout, h], by omega, n.succ_pos⟩
    · simp only [if_neg hout] at h
      cases hrow : drawRow edge (m.read (base + j)) ox (oy + j) (List.range 8) k with
      | error e' =>
        obtain ⟨hedge, c, hc, hbit, hgrid, rfl⟩ := drawRow_error hrow
        obtain rfl : _ = e := by simpa only [hrow, Except.error.injEq] using h
        exact .inr ⟨hedge, j, c, by omega, List.mem_range.1 hc, hbit, hgrid, rfl⟩
      | ok k' =>
        obtain ⟨he, hend, hn⟩ | ⟨hedge, r, c, hr, hrest⟩ := ih (by simpa only [hrow] using h)
        · refine .inl ⟨?_, by omega, n.succ_pos⟩
          rw [he]
          congr 2
          omega
        · exact .inr ⟨hedge, r, c, by omega, hrest⟩

/-- Everything a draw can do: write the framebuffer and VF, or fault at the first address outside memory, or at a set bit
that overhangs under policy `fault`. -/
theorem exec_drw_cases (x y : RegIx) (n : Nibble) (s : State) :
    (∃ f v, exec (.drw x y n) s = .next ((s.setFb f).setFlag v)) ∨
    (0 < n.toNat ∧ 4096 ≤ s.I.toNat + (n.toNat - 1) ∧
      exec (.drw x y n) s = .next (faulted s .memoryOutOfRange (max 4096 s.I.toNat))) ∨
    (s.spriteEdge = .fault ∧ ∃ r c, r < n.toNat ∧ s.Overhangs x y r c ∧
      exec (.drw x y n) s = .next (faulted s .spriteOutOfBounds ((s.originY y + r) * 64 + (s.originX x + c)))) := by
  rw [exec_drw, List.range_eq_range']
  cases hrows : drawRows s.spriteEdge s.mem (s.indexAddr 0) (s.originX x) (s.originY y) (List.range' 0 n.toNat)
    ⟨s.fb, 0⟩ with
  | ok k => exact .inl ⟨k.fb, k.vf, rfl⟩
  | error e =>
    obtain ⟨rfl, hend, hn⟩ | ⟨hedge, r, c, hr, hc, hbit, hout, rfl⟩ := drawRows_error hrows
    · have hend' : 4096 < s.I.toNat + n.toNat := hend
      exact .inr (.inl ⟨hn, by omega, rfl⟩)
    · exact .inr (.inr ⟨hedge, r, c, by omega, ⟨hc, hbit, hout⟩, rfl⟩)

/-! What Execute can do (R240 to R243) -/

/-- What a completed instruction keeps: the fault register and the canonical form of memory. -/
def State.Completed (s t : State) : Prop := t.fault = s.fault ∧ (s.mem.wf → t.mem.wf)

theorem State.Completed.of_eq {s t : State} (hfault : t.fault = s.fault) (hmem : t.mem = s.mem) : s.Completed t :=
  ⟨hfault, fun hwf => hmem ▸ hwf⟩

theorem State.completed_skipIf (s : State) (c : Bool) : s.Completed (s.skipIf c) := by
  rw [State.skipIf_eq]
  exact .of_eq rfl rfl

/-- A store completes inside memory, or is a fault and nothing else (R54, R246). -/
theorem State.storeAtIndex_cases (s : State) {bytes : List Byte} (hne : bytes ≠ []) :
    (∃ t, s.storeAtIndex bytes = .next t ∧ s.Completed t) ∨
    (4096 < s.I.toNat + bytes.length ∧
      s.storeAtIndex bytes = .next (faulted s .memoryOutOfRange (max 4096 s.I.toNat))) := by
  obtain hin | hout := le_or_gt (s.I.toNat + bytes.length) 4096
  · have hwrite : memWriteBytes s.mem (s.indexAddr 0) bytes = .ok (s.mem.writeAll s.I.toNat bytes) :=
      (memWriteBytes_eq ..).trans (if_pos (.inl hin))
    rw [State.storeAtIndex, hwrite]
    exact .inl ⟨_, rfl, rfl, fun hwf => Memory.writeAll_wf bytes hwf hin⟩
  · exact .inr ⟨hout, State.storeAtIndex_of_lt hne hout⟩

/-- A load completes inside memory, or is a fault and nothing else (R54, R246). -/
theorem exec_loadRegs_cases (x : RegIx) (s : State) :
    (∃ t, exec (.loadRegs x) s = .next t ∧ s.Completed t) ∨
    (4096 ≤ s.I.toNat + x.toNat ∧
      exec (.loadRegs x) s = .next (faulted s .memoryOutOfRange (max 4096 s.I.toNat))) := by
  obtain hin | hout := Nat.lt_or_ge (s.I.toNat + x.toNat) 4096
  · rw [exec_loadRegs, memReadBytes_eq, if_pos (.inl hin)]
    exact .inl ⟨_, rfl, .of_eq rfl rfl⟩
  · exact .inr ⟨hout, exec_loadRegs_of_le hout⟩

/-- A key test completes for a key, or is a fault and nothing else (R211, R212). -/
theorem commit_keyAt_cases (s : State) (k : Byte) (f : Bool → Bool) :
    (∃ t, commit s ((s.keyAt k).map fun b => s.skipIf (f b)) = .next t ∧ s.Completed t) ∨
    (16 ≤ k.toNat ∧
      commit s ((s.keyAt k).map fun b => s.skipIf (f b)) = .next (faulted s .keyIndexOutOfRange k.toNat)) := by
  obtain hin | hout := Nat.lt_or_ge k.toNat 16
  · rw [State.keyAt_ok hin]
    exact .inl ⟨_, rfl, State.completed_skipIf ..⟩
  · exact .inr ⟨hout, commit_keyAt_of_le _ hout⟩

/-- The info field holds every number below 2^17 (R33). -/
theorem info_toNat {n : Nat} (h : n < 2 ^ 17) : (BitVec.ofNat 17 n).toNat = n :=
  (BitVec.toNat_ofNat ..).trans (Nat.mod_eq_of_lt h)

/-- Everything Execute of the cycle's own instruction can do: complete, or take a fault that the state left explains. -/
theorem exec_cases {i : Instr} {s : State} (hfetch : fetch s.mem s.scratch.addr = .ok s.scratch.word)
    (hd : decode s.scratch.word = .instr i) :
    (∃ t, exec i s = .next t ∧ s.Completed t) ∨
    ∃ cause info, exec i s = .next (faulted s cause info) ∧
      (FaultRecord.mk cause s.scratch.addr s.scratch.word (BitVec.ofNat 17 info)).Explains (faulted s cause info) := by
  have hinfo : (BitVec.ofNat 17 (max 4096 s.I.toNat)).toNat = max 4096 s.I.toNat := info_toNat (by omega)
  cases i with
  | ret =>
    obtain hempty | hpos := Nat.eq_zero_or_pos s.sp.val
    · exact .inr ⟨_, _, exec_ret_of_empty hempty, rfl, hfetch, hempty, rfl, hd⟩
    · rw [exec_ret, State.popPc_ok hpos]
      exact .inl ⟨_, rfl, .of_eq rfl rfl⟩
  | call nnn =>
    obtain hlt | hfull : s.sp.val < 16 ∨ s.sp.val = 16 := by omega
    · rw [exec_call, State.push_ok s.pc hlt]
      exact .inl ⟨_, rfl, .of_eq rfl rfl⟩
    · exact .inr ⟨_, _, exec_call_of_full nnn hfull, rfl, hfetch, hfull, rfl, nnn, hd⟩
  | seKk | sneKk | seVy | sneVy => exact .inl ⟨_, rfl, State.completed_skipIf ..⟩
  | drw x y n =>
    obtain ⟨f, v, hexec⟩ | ⟨hn, hout, hexec⟩ | ⟨hedge, r, c, hr, ⟨hc, hbit, hout⟩, hexec⟩ := exec_drw_cases x y n s
    · exact .inl ⟨_, hexec, .of_eq rfl rfl⟩
    · exact .inr ⟨_, _, hexec, rfl, hfetch, hinfo, .inl ⟨x, y, n, hd, hn, hout⟩⟩
    · have hx : s.originX x < 64 := Nat.mod_lt _ (by decide)
      have hy : s.originY y < 32 := Nat.mod_lt _ (by decide)
      exact .inr ⟨_, _, hexec, rfl, hfetch, hedge, x, y, n, r, c, hd, hr, hc, hbit, hout, info_toNat (by omega)⟩
  | skp x =>
    obtain hdone | ⟨hout, hexec⟩ := commit_keyAt_cases s (s.reg x) id
    · exact .inl hdone
    · exact .inr ⟨_, _, hexec, rfl, hfetch, x, .inl hd, hout, info_toNat (by omega)⟩
  | sknp x =>
    obtain hdone | ⟨hout, hexec⟩ := commit_keyAt_cases s (s.reg x) not
    · exact .inl hdone
    · exact .inr ⟨_, _, hexec, rfl, hfetch, x, .inr hd, hout, info_toNat (by omega)⟩
  | ldVxK x =>
    cases hk : s.firstKey with
    | some k => exact .inl ⟨_, execLdVxK_some x hk, .of_eq rfl rfl⟩
    | none => exact .inl ⟨_, execLdVxK_none x hk, .of_eq rfl rfl⟩
  | ldB x =>
    obtain hdone | ⟨hout, hexec⟩ := s.storeAtIndex_cases (bytes := bcdDigits (s.reg x)) (List.cons_ne_nil _ _)
    · exact .inl hdone
    · exact .inr ⟨_, _, hexec, rfl, hfetch, hinfo, .inr (.inl ⟨x, hd, Nat.le_of_lt_succ hout⟩)⟩
  | storeRegs x =>
    obtain hdone | ⟨hout, hexec⟩ := s.storeAtIndex_cases (List.ne_nil_of_length_eq_add_one (s.length_regsUpTo x))
    · exact .inl hdone
    · rw [State.length_regsUpTo] at hout
      exact .inr ⟨_, _, hexec, rfl, hfetch, hinfo, .inr (.inr ⟨x, .inl hd, Nat.le_of_lt_succ hout⟩)⟩
  | loadRegs x =>
    obtain hdone | ⟨hout, hexec⟩ := exec_loadRegs_cases x s
    · exact .inl hdone
    · exact .inr ⟨_, _, hexec, rfl, hfetch, hinfo, .inr (.inr ⟨x, .inr hd, hout⟩)⟩
  | _ => exact .inl ⟨_, rfl, .of_eq rfl rfl⟩

/-! What a step can do (R100, R240 to R244) -/

/-- A stopped core steps to itself (R244). -/
theorem step_of_stopped {s : State} (h : s.fault ≠ none) : step s = .next s := by
  obtain ⟨-, hc⟩ | ⟨hrun, -⟩ | ⟨hrun, -⟩ | ⟨hrun, -⟩ := cycle_cases (Config.rnd s.draw) s
  · exact hc
  all_goals exact absurd hrun h

/-- Everything a step of a running core can do: complete, keeping memory canonical and dropping the scratch values, or
change nothing but the fault register, whose record the state explains. -/
theorem step_cases {s : State} (hrun : s.fault = none) :
    (∃ t, step s = .next t ∧ t.fault = none ∧ t.scratch = Scratch.idle ∧ (s.mem.wf → t.mem.wf)) ∨
    ∃ r : FaultRecord, step s = .next { s with fault := some r, scratch := Scratch.idle } ∧ r.Explains s := by
  obtain ⟨hfault, -⟩ | ⟨-, hpc, hc⟩ | ⟨-, w, m, -, -, hc⟩ | ⟨-, w, i, hfetch, hd, hc⟩ :=
    cycle_cases (Config.rnd s.draw) s
  · exact absurd hrun hfault
  · exact .inr ⟨_, hc, rfl, hpc, rfl, info_toNat (by omega)⟩
  · exact .inl ⟨_, hc, (State.endCycle_fault _).trans hrun, State.endCycle_scratch _, fun hwf => by simpa using hwf⟩
  · obtain ⟨t, hexec, hfault, hmem⟩ | ⟨cause, info, hexec, hexplains⟩ :=
      exec_cases (s := (s.latch w (Config.rnd s.draw)).setPc (s.pc + 2)) hfetch hd
    · rw [hexec] at hc
      exact .inl ⟨_, hc, (State.endCycle_fault t).trans (hfault.trans hrun), State.endCycle_scratch t,
        fun hwf => (State.endCycle_mem t).symm ▸ hmem hwf⟩
    · rw [hexec] at hc
      exact .inr ⟨_, hc, hexplains⟩

/-- A step of a running core that records a fault took the second way. -/
theorem step_fault {s t : State} {r : FaultRecord} (hrun : s.fault = none) (hstep : step s = .next t)
    (hr : t.fault = some r) : t = { s with fault := some r, scratch := Scratch.idle } ∧ r.Explains s := by
  obtain ⟨u, hu, hnone, -⟩ | ⟨q, hq, hexplains⟩ := step_cases hrun
  · obtain rfl := Host.Outcome.next.inj (hu.symm.trans hstep)
    cases hnone.symm.trans hr
  · obtain rfl := Host.Outcome.next.inj (hq.symm.trans hstep)
    obtain rfl := Option.some.inj hr
    exact ⟨rfl, hexplains⟩

/-- A record that the state explains names the instruction and, for an access outside memory, the address. -/
theorem FaultRecord.Explains.addr_word_info {r : FaultRecord} {s : State} (h : r.Explains s) :
    r.addr = s.pc ∧
    ((r.cause = .fetchOutOfRange ∧ r.word = 0) ∨ (r.cause ≠ .fetchOutOfRange ∧ fetch s.mem s.pc = .ok r.word)) ∧
    (r.cause = .memoryOutOfRange → r.info.toNat = max 4096 s.I.toNat) := by
  obtain ⟨cause, addr, word, info⟩ := r
  obtain ⟨haddr, hcause⟩ := h
  refine ⟨haddr, ?_⟩
  cases cause with
  | fetchOutOfRange =>
    obtain ⟨-, hword, -⟩ := hcause
    exact ⟨.inl ⟨rfl, hword⟩, nofun⟩
  | memoryOutOfRange =>
    obtain ⟨hfetch, hinfo, -⟩ := hcause
    exact ⟨.inr ⟨nofun, hfetch⟩, fun _ => hinfo⟩
  | _ =>
    obtain ⟨hfetch, -⟩ := hcause
    exact ⟨.inr ⟨nofun, hfetch⟩, nofun⟩

/-! The statements -/

/-- Settles O15: a completed step keeps memory canonical and records nothing; a faulting one leaves standing the state that
explains its record; a stopped core steps to itself. -/
theorem stepKeepsMemoryCanonicalAndFaultsExplained : Obligations.StepKeepsMemoryCanonicalAndFaultsExplained := by
  unfold Obligations.StepKeepsMemoryCanonicalAndFaultsExplained
  intro s t hinv hstep
  by_cases hrun : s.fault = none
  · obtain ⟨hwf, -, -⟩ := hinv
    obtain ⟨u, hu, hnone, hscratch, hmem⟩ | ⟨r, hr, hexplains⟩ := step_cases hrun
    · obtain rfl := Host.Outcome.next.inj (hu.symm.trans hstep)
      exact ⟨hmem hwf, hscratch, fun r hr => nomatch hnone.symm.trans hr⟩
    · obtain rfl := Host.Outcome.next.inj (hr.symm.trans hstep)
      exact ⟨hwf, rfl, fun q hq => Option.some.inj hq ▸ hexplains⟩
  · obtain rfl := Host.Outcome.next.inj ((step_of_stopped hrun).symm.trans hstep)
    exact hinv

/-- A run's first step, and the rest of the run. -/
theorem run_succ {M : Host.Core} {s t : M.State} (k : Nat) (h : M.step s = .next t) : M.run (k + 1) s = M.run k t := by
  rw [Host.Core.run, h]

/-- LoadProgram writes memory only (R65). -/
theorem loadProgram_fault (bytes : List Byte) (s : State) : (loadProgram bytes s).1.fault = s.fault := by
  rw [loadProgram_eq]
  split <;> rfl

/-- Settles O10: each step of the run is from the stopped state to itself. -/
theorem faultedCoreStaysStopped : Obligations.FaultedCoreStaysStopped := by
  unfold Obligations.FaultedCoreStaysStopped
  refine ⟨fun k s hfault => ?_, fun _ _ _ => rfl, fun bytes _ _ s => ⟨loadProgram_fault bytes s, rfl⟩⟩
  induction k with
  | zero => rfl
  | succ k ih => exact (run_succ (M := Sys2Proof.core) k (step_of_stopped hfault)).trans ih

/-- Settles O11: a stopped core steps to itself, a running one completes or records a fault. -/
theorem everyStepAnswersANextState : Obligations.EveryStepAnswersANextState := by
  unfold Obligations.EveryStepAnswersANextState
  intro s
  by_cases hrun : s.fault = none
  · obtain ⟨t, ht, -⟩ | ⟨r, hr, -⟩ := step_cases hrun
    · exact ⟨t, ht⟩
    · exact ⟨_, hr⟩
  · exact ⟨s, step_of_stopped hrun⟩

/-- Settles O12: the whole next state of a faulting step, and what its record says of it. -/
theorem faultingCycleCommitsNothing : Obligations.FaultingCycleCommitsNothing := by
  unfold Obligations.FaultingCycleCommitsNothing
  intro s t r hrun hstep hr
  obtain ⟨ht, hexplains⟩ := step_fault hrun hstep hr
  exact ⟨ht, hexplains.addr_word_info⟩

/-- Settles O13: the record of a faulting step explains itself by the state before the step. -/
theorem everyFaultHasItsCauseConditionAndInfo : Obligations.EveryFaultHasItsCauseConditionAndInfo := by
  unfold Obligations.EveryFaultHasItsCauseConditionAndInfo
  exact ⟨fun s t r hrun hstep hr => (step_fault hrun hstep hr).2, ⟨rfl, rfl, rfl, rfl, rfl, rfl⟩, loadProgram_fault⟩

/-- Settles O24: one element of the key vector is set, and the two reads are of a field each. -/
theorem hostSetsOneKeyAndReadsSoundAndFault : Obligations.HostSetsOneKeyAndReadsSoundAndFault := by
  unfold Obligations.HostSetsOneKeyAndReadsSoundAndFault
  intro s k b
  exact ⟨Vector.getElem?_set_self k.isLt, fun j hj => Vector.getElem?_set_ne k.isLt hj.symm, rfl, rfl, rfl⟩

end Sys2Proof.Machine

/-! PROOFS of the family 70_reset_and_hazards.md: the state after Init (R270), the timer written and read back two cycles
later (R276), and the idle state (R280). -/

namespace Sys2Proof.Machine

/-- Settles O16: no cell is listed, and no fault is recorded. -/
theorem resetMeetsTheStepInvariant : Obligations.ResetMeetsTheStepInvariant := by
  unfold Obligations.ResetMeetsTheStepInvariant
  exact ⟨State.reset_mem_wf, rfl, nofun⟩

/-- The font's 80 bytes stand at 0x050 and every other byte of the block's memory is 0 (R270). -/
theorem Memory.read_ofFont (font : Font) (a : Nat) :
    (Memory.ofFont font).read a = if 0x050 ≤ a ∧ a < 0x0A0 then font.toList.getD (a - 0x050) 0 else 0 := by
  have hlen : font.toList.length = 80 := Vector.length_toList
  split_ifs with hfont
  · obtain ⟨i, rfl⟩ := Nat.exists_eq_add_of_le hfont.1
    have hi : i < font.toList.length := by omega
    rw [Nat.add_sub_cancel_left, List.getD_eq_getElem _ _ hi]
    exact Memory.read_writeAll_inside _ Memory.nil_wf (hlen.symm ▸ by decide) hi
  · rw [Memory.ofFont, Memory.read_writeAll_outside _ _ _ _ (by simp only [Config.fontBase]; omega)]
    exact Memory.unlisted_outside hfont

/-- Settles O21: memory is the font over zeros, and every other value is the one Init writes. -/
theorem initSetsEveryResetValue : Obligations.InitSetsEveryResetValue := by
  unfold Obligations.InitSetsEveryResetValue
  intro font edge s
  refine ⟨fun a _ => Memory.read_ofFont font a, fun x => ?_, rfl, rfl, fun j hj => ?_, rfl, rfl, rfl,
    Framebuffer.pixel_blank, fun k hk => ?_, rfl⟩
  · exact Vector.getElem_replicate ..
  · exact (Vector.getElem?_eq_getElem hj).trans (congrArg some (Vector.getElem_replicate ..))
  · exact (Vector.getElem?_eq_getElem hk).trans (congrArg some (Vector.getElem_replicate ..))

/-- The step of a running core that fetched an instruction which completes: its effect, then the cycle's end. -/
theorem step_of_exec {s t : State} {w : Word} {i : Instr} (hrun : s.fault = none) (hfetch : fetch s.mem s.pc = .ok w)
    (hd : decode w = .instr i) (hexec : exec i ((s.latch w (Config.rnd s.draw)).setPc (s.pc + 2)) = .next t) :
    step s = .next t.endCycle := by
  rw [step, cycle_of_instr hrun hfetch hd, hexec]
  rfl

/-- A cycle of Fx15 leaves DT at V[x] less 1, unless that was 0, and goes on to the next word of the same memory. -/
theorem step_ldDTVx {s : State} {w : Word} {x : RegIx} (hrun : s.fault = none) (hfetch : fetch s.mem s.pc = .ok w)
    (hd : decode w = .instr (.ldDTVx x)) :
    ∃ t, step s = .next t ∧ t.fault = none ∧ t.mem = s.mem ∧ t.pc = s.pc + 2 ∧ t.DT.toNat = (s.reg x).toNat - 1 :=
  ⟨_, step_of_exec hrun hfetch hd rfl, (State.endCycle_fault _).trans hrun, State.endCycle_mem _, State.endCycle_pc _,
    State.endCycle_DT_toNat hrun⟩

/-- A cycle of Fx07 reads DT before it counts it down. -/
theorem step_ldVxDT {s : State} {w : Word} {y : RegIx} (hrun : s.fault = none) (hfetch : fetch s.mem s.pc = .ok w)
    (hd : decode w = .instr (.ldVxDT y)) :
    ∃ t, step s = .next t ∧ t.reg y = s.DT ∧ t.DT.toNat = s.DT.toNat - 1 :=
  ⟨_, step_of_exec hrun hfetch hd rfl, (State.reg_endCycle ..).trans (State.reg_setReg_self ..),
    State.endCycle_DT_toNat hrun⟩

/-- Settles O52: the first cycle's end counts V[x] down once before the second reads it, and the second's counts it again. -/
theorem delaySetThenReadIsOneLower : Obligations.DelaySetThenReadIsOneLower := by
  unfold Obligations.DelaySetThenReadIsOneLower
  intro s x y w₁ w₂ hrun hfetch₁ hd₁ hfetch₂ hd₂
  obtain ⟨t, hset, htrun, htmem, htpc, htDT⟩ := step_ldDTVx hrun hfetch₁ hd₁
  rw [← htmem, ← htpc] at hfetch₂
  obtain ⟨u, hread, hy, huDT⟩ := step_ldVxDT htrun hfetch₂ hd₂
  refine ⟨t, u, hset, hread, ?_, ?_⟩
  · rw [hy, htDT]
  · rw [huDT, htDT, Nat.sub_sub]

/-- What a cycle of an idle core leaves: the timers counted down, and the model's own fields (R280, log entries 4 and 5). -/
def State.idleNext (s : State) : State :=
  { s with DT := countdown s.DT, ST := countdown s.ST, scratch := Scratch.idle, draw := s.draw + 1 }

/-- The jump of an idle core goes to where it is, so only the cycle's end is left of its step. -/
theorem step_of_idle {s : State} (h : s.Idle) : step s = .next s.idleNext := by
  obtain ⟨hrun, w, nnn, hfetch, hd, hself⟩ := h
  have hpc : zextAddr nnn = s.pc := BitVec.eq_of_toNat_eq ((zextAddr_toNat nnn).trans hself)
  have hjump : exec (.jp nnn) ((s.latch w (Config.rnd s.draw)).setPc (s.pc + 2)) =
      .next (s.latch w (Config.rnd s.draw)) := by
    change Host.Outcome.next (s.latch w (Config.rnd s.draw) |>.setPc (zextAddr nnn)) = _
    rw [hpc]
    rfl
  rw [step_of_exec hrun hfetch hd hjump]
  exact congrArg Host.Outcome.next (State.endCycle_of_running hrun)

/-- Idleness is of memory, the pc and the fault register only. -/
theorem State.idle_idleNext {s : State} (h : s.Idle) : s.idleNext.Idle := h

/-- Settles O20: each step of the run is from an idle state to an idle one with the timers one lower. -/
theorem idleStateStaysIdle : Obligations.IdleStateStaysIdle := by
  unfold Obligations.IdleStateStaysIdle
  intro k
  induction k with
  | zero => exact fun s hidle => ⟨s, rfl, hidle, rfl, rfl, rfl⟩
  | succ k ih =>
    intro s hidle
    obtain ⟨t, hrun, ht, hDT, hST, hrest⟩ := ih s.idleNext (State.idle_idleNext hidle)
    refine ⟨t, (run_succ (M := Sys2Proof.core) k (step_of_idle hidle)).trans hrun, ht, ?_, ?_, hrest⟩
    · rw [hDT, State.idleNext, countdown_toNat, Nat.sub_sub, Nat.add_comm]
    · rw [hST, State.idleNext, countdown_toNat, Nat.sub_sub, Nat.add_comm]

end Sys2Proof.Machine
